-- ==== Sys2Proof/Word.lean ====
section
/-! DEFINITION. The word types of the machine (00_scope.md R10, R11; 10_state.md R20). Every value is unsigned. -/

namespace Sys2Proof

/-- A memory cell, a general register, a timer, an immediate `kk` (R20, R25, R26). -/
abbrev Byte := BitVec 8

/-- An instruction word; also the 16-bit containers of `I`, `pc`, a stack entry and `info` (R22, R23, R24, R33). -/
abbrev Word := BitVec 16

/-- A register number `x` or `y`: a 4-bit field of the instruction word (R61). -/
abbrev Reg := BitVec 4

/-- `VF`, the name of register 15 (R21). -/
abbrev VF : Reg := 0xF#4

theorem Reg.lt (x : Reg) : x.toNat < 16 := x.isLt

end Sys2Proof
end

