-- ==== Sys2Proof/Syntax.lean ====
section
/-! DEFINITION. The 34 instructions of 30_encoding.md R64 (spec/opcode_table.json), one constructor per row.

An operand has the type of its field of the instruction word (R61), so its range is carried by its type. -/

namespace Sys2Proof

/-- One instruction. Each docstring gives the pattern, which is the spec's primary name (R69), and the rule of its effect. -/
inductive Instr where
  /-- `00E0`, CLS (R141). -/
  | cls
  /-- `00EE`, RET (R80). -/
  | ret
  /-- `1nnn`, JP nnn (R81). -/
  | jp (nnn : BitVec 12)
  /-- `2nnn`, CALL nnn (R82). -/
  | call (nnn : BitVec 12)
  /-- `3xkk`, SE Vx, kk (R90). -/
  | seByte (x : Reg) (kk : Byte)
  /-- `4xkk`, SNE Vx, kk (R91). -/
  | sneByte (x : Reg) (kk : Byte)
  /-- `5xy0`, SE Vx, Vy (R92). -/
  | seReg (x y : Reg)
  /-- `6xkk`, LD Vx, kk (R100). -/
  | ldByte (x : Reg) (kk : Byte)
  /-- `7xkk`, ADD Vx, kk (R101). -/
  | addByte (x : Reg) (kk : Byte)
  /-- `8xy0`, LD Vx, Vy (R110). -/
  | ldReg (x y : Reg)
  /-- `8xy1`, OR Vx, Vy (R111). -/
  | orReg (x y : Reg)
  /-- `8xy2`, AND Vx, Vy (R112). -/
  | andReg (x y : Reg)
  /-- `8xy3`, XOR Vx, Vy (R113). -/
  | xorReg (x y : Reg)
  /-- `8xy4`, ADD Vx, Vy (R114). -/
  | addReg (x y : Reg)
  /-- `8xy5`, SUB Vx, Vy (R115). -/
  | sub (x y : Reg)
  /-- `8xy6`, SHR Vx (R116). The field `y` is ignored by the effect (R66); it is kept so that no bit of the word is lost (DESIGN CHOICE, log 28). -/
  | shr (x y : Reg)
  /-- `8xy7`, SUBN Vx, Vy (R117). -/
  | subn (x y : Reg)
  /-- `8xyE`, SHL Vx (R118). The field `y` is ignored by the effect (R66); it is kept so that no bit of the word is lost (DESIGN CHOICE, log 28). -/
  | shl (x y : Reg)
  /-- `9xy0`, SNE Vx, Vy (R93). -/
  | sneReg (x y : Reg)
  /-- `Annn`, LD I, nnn (R130). -/
  | ldI (nnn : BitVec 12)
  /-- `Bnnn`, JP V0, nnn (R83). -/
  | jpV0 (nnn : BitVec 12)
  /-- `Cxkk`, RND Vx, kk (R156). -/
  | rnd (x : Reg) (kk : Byte)
  /-- `Dxyn`, DRW Vx, Vy, n (R142). -/
  | drw (x y : Reg) (n : BitVec 4)
  /-- `Ex9E`, SKP Vx (R150). -/
  | skp (x : Reg)
  /-- `ExA1`, SKNP Vx (R151). -/
  | sknp (x : Reg)
  /-- `Fx07`, LD Vx, DT (R153). -/
  | ldVxDT (x : Reg)
  /-- `Fx0A`, LD Vx, K (R152). -/
  | ldVxK (x : Reg)
  /-- `Fx15`, LD DT, Vx (R154). -/
  | ldDTVx (x : Reg)
  /-- `Fx18`, LD ST, Vx (R155). -/
  | ldSTVx (x : Reg)
  /-- `Fx1E`, ADD I, Vx (R131). -/
  | addI (x : Reg)
  /-- `Fx29`, LD F, Vx (R132). -/
  | ldF (x : Reg)
  /-- `Fx33`, LD B, Vx (R133). -/
  | ldB (x : Reg)
  /-- `Fx55`, LD [I], Vx (R134). -/
  | storeRegs (x : Reg)
  /-- `Fx65`, LD Vx, [I] (R135). -/
  | loadRegs (x : Reg)
  deriving DecidableEq, Repr

end Sys2Proof
end

