-- ==== Sys2Proof/Decode.lean ====
section
/-! DEFINITION. From bits to an instruction and back (30_encoding.md R60 to R66; 20_memory.md R44, R45). -/

namespace Sys2Proof

/-- Why bytes are no instruction. -/
inductive DecodeError where
  /-- The word matches no pattern: `UnknownOpcode(op)` (R65). -/
  | unknownOpcode (op : Word)
  /-- Fewer than two bytes: every instruction has two (R60). -/
  | tooShort
  deriving DecidableEq, Repr

/-! ## Fields of the instruction word (R61) -/

/-- `op[15:12]`, the major opcode. -/
def opMajor (op : Word) : BitVec 4 := op.extractLsb' 12 4

/-- `x = op[11:8]`. -/
def opX (op : Word) : Reg := op.extractLsb' 8 4

/-- `y = op[7:4]`. -/
def opY (op : Word) : Reg := op.extractLsb' 4 4

/-- `n = op[3:0]`. -/
def opN (op : Word) : BitVec 4 := op.extractLsb' 0 4

/-- `kk = op[7:0]`. -/
def opKK (op : Word) : Byte := op.extractLsb' 0 8

/-- `nnn = op[11:0]`. -/
def opNNN (op : Word) : BitVec 12 := op.extractLsb' 0 12

/-- `(hi << 8) | lo`: the byte at the lower address is bits 15 to 8 (R44, R45). -/
def wordOfBytes (hi lo : Byte) : Word := hi ++ lo

/-- The byte of an instruction word that lies at the lower address (R45). -/
def highByte (op : Word) : Byte := op.extractLsb' 8 8

/-- The byte of an instruction word that lies at the higher address (R45). -/
def lowByte (op : Word) : Byte := op.extractLsb' 0 8

/-! ## Decode (R63) -/

/-- Major 0x8: "disambiguate further on the low nibble". -/
def decodeMajor8 (op : Word) : Except DecodeError Instr :=
  match opN op with
  | 0x0#4 => .ok (.ldReg (opX op) (opY op))
  | 0x1#4 => .ok (.orReg (opX op) (opY op))
  | 0x2#4 => .ok (.andReg (opX op) (opY op))
  | 0x3#4 => .ok (.xorReg (opX op) (opY op))
  | 0x4#4 => .ok (.addReg (opX op) (opY op))
  | 0x5#4 => .ok (.sub (opX op) (opY op))
  | 0x6#4 => .ok (.shr (opX op) (opY op))
  | 0x7#4 => .ok (.subn (opX op) (opY op))
  | 0xE#4 => .ok (.shl (opX op) (opY op))
  | _ => .error (.unknownOpcode op)

/-- Major 0xE: "disambiguate on the low byte". -/
def decodeMajorE (op : Word) : Except DecodeError Instr :=
  match opKK op with
  | 0x9E#8 => .ok (.skp (opX op))
  | 0xA1#8 => .ok (.sknp (opX op))
  | _ => .error (.unknownOpcode op)

/-- Major 0xF: "disambiguate on the low byte". -/
def decodeMajorF (op : Word) : Except DecodeError Instr :=
  match opKK op with
  | 0x07#8 => .ok (.ldVxDT (opX op))
  | 0x0A#8 => .ok (.ldVxK (opX op))
  | 0x15#8 => .ok (.ldDTVx (opX op))
  | 0x18#8 => .ok (.ldSTVx (opX op))
  | 0x1E#8 => .ok (.addI (opX op))
  | 0x29#8 => .ok (.ldF (opX op))
  | 0x33#8 => .ok (.ldB (opX op))
  | 0x55#8 => .ok (.storeRegs (opX op))
  | 0x65#8 => .ok (.loadRegs (opX op))
  | _ => .error (.unknownOpcode op)

/-- The dispatch on the high nibble. The last arm is major 0x0, where only the two exact words decode. -/
def decodeMajor (op : Word) : Except DecodeError Instr :=
  match opMajor op with
  | 0x1#4 => .ok (.jp (opNNN op))
  | 0x2#4 => .ok (.call (opNNN op))
  | 0x3#4 => .ok (.seByte (opX op) (opKK op))
  | 0x4#4 => .ok (.sneByte (opX op) (opKK op))
  | 0x5#4 => if opN op = 0x0#4 then .ok (.seReg (opX op) (opY op)) else .error (.unknownOpcode op)
  | 0x6#4 => .ok (.ldByte (opX op) (opKK op))
  | 0x7#4 => .ok (.addByte (opX op) (opKK op))
  | 0x8#4 => decodeMajor8 op
  | 0x9#4 => if opN op = 0x0#4 then .ok (.sneReg (opX op) (opY op)) else .error (.unknownOpcode op)
  | 0xA#4 => .ok (.ldI (opNNN op))
  | 0xB#4 => .ok (.jpV0 (opNNN op))
  | 0xC#4 => .ok (.rnd (opX op) (opKK op))
  | 0xD#4 => .ok (.drw (opX op) (opY op) (opN op))
  | 0xE#4 => decodeMajorE op
  | 0xF#4 => decodeMajorF op
  | _ => .error (.unknownOpcode op)

/-- `Decode(op)` of R63: "two exact-match opcodes are checked before the nibble dispatch". -/
def decodeWord (op : Word) : Except DecodeError Instr :=
  if op = 0x00E0#16 then .ok .cls
  else if op = 0x00EE#16 then .ok .ret
  else decodeMajor op

/-- The instruction at the head of any bytes, with the bytes after it. -/
def decodeBytes : List Byte → Except DecodeError (Instr × List Byte)
  | hi :: lo :: rest =>
    match decodeWord (wordOfBytes hi lo) with
    | .ok i => .ok (i, rest)
    | .error e => .error e
  | _ => .error .tooShort

/-- What the decoder reads from the instruction whose bits spec/opcode_table.json numbers as `w`; bits above `nbits` are 0. -/
def decodeTableWord (nbits w : Nat) : Option Instr :=
  let op : Word := BitVec.ofNat 16 (w % 2 ^ nbits)
  match decodeBytes [highByte op, lowByte op] with
  | .ok (i, _) => some i
  | .error _ => none

/-! ## Encode: the six formats of R62 and the patterns of R64 -/

/-- Format A: major, `nnn`. -/
def formatA (major : BitVec 4) (nnn : BitVec 12) : Word := major ++ nnn

/-- Format XK: major, `x`, `kk`. Format X is the same layout with `kk` the minor byte. -/
def formatXK (major : BitVec 4) (x : Reg) (kk : Byte) : Word := major ++ x ++ kk

/-- Format XYN: major, `x`, `y`, `n`. Format XY is the same layout with `n` the minor opcode. -/
def formatXYN (major : BitVec 4) (x y : Reg) (n : BitVec 4) : Word := major ++ x ++ y ++ n

/-- The word of an instruction (R64). -/
def encode : Instr → Word
  | .cls => 0x00E0#16
  | .ret => 0x00EE#16
  | .jp nnn => formatA 0x1 nnn
  | .call nnn => formatA 0x2 nnn
  | .seByte x kk => formatXK 0x3 x kk
  | .sneByte x kk => formatXK 0x4 x kk
  | .seReg x y => formatXYN 0x5 x y 0x0
  | .ldByte x kk => formatXK 0x6 x kk
  | .addByte x kk => formatXK 0x7 x kk
  | .ldReg x y => formatXYN 0x8 x y 0x0
  | .orReg x y => formatXYN 0x8 x y 0x1
  | .andReg x y => formatXYN 0x8 x y 0x2
  | .xorReg x y => formatXYN 0x8 x y 0x3
  | .addReg x y => formatXYN 0x8 x y 0x4
  | .sub x y => formatXYN 0x8 x y 0x5
  | .shr x y => formatXYN 0x8 x y 0x6
  | .subn x y => formatXYN 0x8 x y 0x7
  | .shl x y => formatXYN 0x8 x y 0xE
  | .sneReg x y => formatXYN 0x9 x y 0x0
  | .ldI nnn => formatA 0xA nnn
  | .jpV0 nnn => formatA 0xB nnn
  | .rnd x kk => formatXK 0xC x kk
  | .drw x y n => formatXYN 0xD x y n
  | .skp x => formatXK 0xE x 0x9E
  | .sknp x => formatXK 0xE x 0xA1
  | .ldVxDT x => formatXK 0xF x 0x07
  | .ldVxK x => formatXK 0xF x 0x0A
  | .ldDTVx x => formatXK 0xF x 0x15
  | .ldSTVx x => formatXK 0xF x 0x18
  | .addI x => formatXK 0xF x 0x1E
  | .ldF x => formatXK 0xF x 0x29
  | .ldB x => formatXK 0xF x 0x33
  | .storeRegs x => formatXK 0xF x 0x55
  | .loadRegs x => formatXK 0xF x 0x65

/-- The bytes of an instruction as memory holds them, the high byte first (R45). -/
def encodeBytes (i : Instr) : List Byte := [highByte (encode i), lowByte (encode i)]

end Sys2Proof
end

