-- ==== Sys2Proof/Machine/Event.lean ====
section
/-! DEFINITION. The steps of the three agents, which a schedule is a sequence of (00_scope.md R5, R7). -/

namespace Sys2Proof.Machine

/-- One action of one of the three agents (00_scope.md R5; 60_exceptions.md R184). -/
inductive Event where
  /-- The scheduler grants a CPU tick (R6). -/
  | cpuTick
  /-- The scheduler grants a timer tick (R174). -/
  | timerTick
  /-- The host changes key `k` (R28). -/
  | setKey (k : Fin 16) (pressed : Bool)
  /-- The host supplies a random byte (R29, R179). -/
  | supplyByte (b : Byte)
  /-- The host loads an image (R190). -/
  | load (image : List Byte)
  deriving DecidableEq, Repr

end Sys2Proof.Machine
end

