-- ==== Sys2Proof/Config.lean ====
section
/-! DEFINITION. The fixed parameters of 00_scope.md R8 that more than one definition uses, and the free values of R9.

A free value has no body: nothing in Lean can evaluate it, so a statement that is proved holds whatever it is. -/

namespace Sys2Proof.Config

/-- `MEM_SIZE - 1`: the highest address of memory (R8, R40). -/
@[simp] abbrev maxAddr : Nat := 0xFFF

/-- `FONT_LEN`: the font table lies at 0x000 to 0x04F (R8, R41). -/
@[simp] abbrev fontLen : Nat := 80

/-- `PROG_BASE`: load address of the image and reset value of `pc` (R8, R190). -/
@[simp] abbrev progBase : Nat := 0x200

/-- `MAX_IMAGE`: the longest image `Load` accepts (R8, R162). -/
@[simp] abbrev maxImage : Nat := 3584

/-- FREE VALUE (log 5). The `n`-th random byte drawn in a run, where the host has queued none: R156 (a), R179, decision D18,
"any of 0..255, no distribution or independence assumed". -/
opaque freeByte : Nat → Byte

/-- FREE VALUE (log 6). `key_select` of R152 (d), decision D11: which of several pressed keys `Fx0A` reports. It is applied to
the pressed keys in ascending order and read modulo their number, so it always names a pressed key and can name any of them. -/
opaque keyChoice : List (Fin 16) → Nat

/-- FREE VALUE (log 1). The parameter `schedule` of R9 (d), decision D17: the `n`-th step that is left open, "any finite or infinite
sequence of steps". `none` is no step by any agent, so that a schedule which ends is one that is `none` from some `n` on. -/
opaque schedule : Nat → Option Machine.Event

end Sys2Proof.Config
end

