-- ==== Sys2Proof/Machine/Font.lean ====
section
/-! DEFINITION. The default instance of the parameter `FONT` (20_memory.md R42). -/

namespace Sys2Proof.Machine

/-- PRESUMED (log 3). The 16 glyphs of R42, five bytes each, digits 0 to 7: "from general knowledge, not in source". -/
def fontLowDigits : List Byte := [
  0xF0, 0x90, 0x90, 0x90, 0xF0,
  0x20, 0x60, 0x20, 0x20, 0x70,
  0xF0, 0x10, 0xF0, 0x80, 0xF0,
  0xF0, 0x10, 0xF0, 0x10, 0xF0,
  0x90, 0x90, 0xF0, 0x10, 0x10,
  0xF0, 0x80, 0xF0, 0x10, 0xF0,
  0xF0, 0x80, 0xF0, 0x90, 0xF0,
  0xF0, 0x10, 0x20, 0x40, 0x40]

/-- PRESUMED (log 3). The glyphs of the digits 8 to F of R42. -/
def fontHighDigits : List Byte := [
  0xF0, 0x90, 0xF0, 0x90, 0xF0,
  0xF0, 0x90, 0xF0, 0x10, 0xF0,
  0xF0, 0x90, 0xF0, 0x90, 0x90,
  0xE0, 0x90, 0xE0, 0x90, 0xE0,
  0xF0, 0x80, 0x80, 0x80, 0xF0,
  0xE0, 0x90, 0x90, 0x90, 0xE0,
  0xF0, 0x80, 0xF0, 0x80, 0xF0,
  0xF0, 0x80, 0xF0, 0x80, 0x80]

/-- PRESUMED (log 3). The table in digit order, glyph `d` at `5 * d` (R41, R42). -/
def fontDefault : Vector Byte 80 := ⟨(fontLowDigits ++ fontHighDigits).toArray, by rfl⟩

end Sys2Proof.Machine
end

