-- ==== Sys2Proof/Machine/State.lean ====
section
/-! DEFINITION. Everything the spec gives the machine (10_state.md), its inputs and its output, as plain data. -/

namespace Sys2Proof.Machine

/-- The five fatal conditions (60_exceptions.md R160). -/
inductive FatalError where
  | imageTooLarge
  | addressOutOfRange
  | stackOverflow
  | stackUnderflow
  | unknownOpcode
  deriving DecidableEq, Repr

/-- The run state of the core (10_state.md R30): `RUN`, or `HALT(E, info)`. -/
inductive Status where
  | run
  | halt (e : FatalError) (info : Word)
  deriving DecidableEq, Repr

/-- The part of a schedule that comes after the events listed one by one (00_scope.md R7, R9 (d), decision D17; log 1). -/
inductive Later where
  /-- These events over and over. With no event the schedule has ended: no agent moves any more. -/
  | repeats (events : List Event)
  /-- The schedule left open, `Config.schedule`, from its `n`-th step on: any infinite sequence, and any finite one. -/
  | free (n : Nat)
  deriving DecidableEq, Repr

/-- Nothing raises a fault of the model: each of the spec's five errors is a next state whose STATUS is `HALT` (R161, R168;
log 8). The type is empty, which is safe: no run is cut short. -/
inductive Fault where
  deriving DecidableEq, Repr

/-- The only refusal. -/
inductive Refusal where
  /-- Raised by an arm of `exec` whose instruction has no meaning yet, under its mnemonic. No arm raises it now. Safe: the
  machine stops where the hardware goes on. -/
  | notModelled (mnemonic : String)
  deriving DecidableEq, Repr

/-- The listed cells of memory: addresses strictly rising, none equal to what an unlisted address reads as (`Memory.wf`). -/
abbrev Memory := List Host.Cell

/-- `FB[X][Y]`: 64 columns of 32 one-bit pixels (10_state.md R27). -/
abbrev Framebuffer := Vector (Vector Bool 32) 64

/-- The state: the tuple at the head of 10_state.md, then the inputs, the output and the model's own fields. -/
structure State where
  /-- `V[0]` to `V[15]` (R20). -/
  v : Vector Byte 16
  /-- The index register: a 16-bit container of a 12-bit value (R22). -/
  i : Word
  /-- The program counter: a 16-bit container, never truncated (R23). -/
  pc : Word
  /-- `STACK[0]` to `STACK[15]`; the entries at `sp` and above are not architectural (R24). -/
  stack : Vector Word 16
  /-- `SP`, the number of valid stack entries, 0 to 16 (R24). -/
  sp : Fin 17
  /-- The delay timer (R25). -/
  dt : Byte
  /-- The sound timer (R25). -/
  st : Byte
  /-- The listed cells of `MEM` (R26). -/
  mem : Memory
  /-- The framebuffer (R27). -/
  fb : Framebuffer
  /-- The run state (R30). -/
  status : Status
  /-- Input `KEY[0..15]`, true when pressed (R28). -/
  keys : Vector Bool 16
  /-- Input: the random bytes the host has supplied and `Cxkk` has not consumed yet, oldest first (R29; log 5). -/
  rand : List Byte
  /-- The parameter `FONT`: the bytes every `Load` puts at 0x000 to 0x04F (R42; log 3). No step writes it. -/
  font : Vector Byte 80
  /-- Output: how many `SOUND_EXPIRED` events have been emitted (R31, R175; log 7). -/
  soundExpired : Nat
  /-- The model's own: how many random bytes have been drawn, which makes a free byte fresh (log 5). -/
  draws : Nat
  /-- The model's own, with `later` the parameter `schedule`: the steps the three agents take next, in order (R7, R9 (d), decision
  D17; log 1). -/
  agenda : List Event
  /-- The model's own: the steps that come after those of `agenda` (log 1). -/
  later : Later
  deriving DecidableEq, Repr

/-- The machine after `Load` of the empty image (10_state.md R34, R190, R191; log 2). `mem` lists nothing, so memory reads as the
font at 0x000 to 0x04F and 0x00 elsewhere. `keys`, `rand`, `font`, `soundExpired`, `draws`, `agenda`, `later` have no reset value in
the spec: logs 4, 5, 3, 7, 5, 1, 1. -/
def State.reset : State where
  v := Vector.replicate 16 0
  i := 0
  pc := 0x200
  stack := Vector.replicate 16 0
  sp := 0
  dt := 0
  st := 0
  mem := []
  fb := Vector.replicate 64 (Vector.replicate 32 false)
  status := .run
  keys := Vector.replicate 16 false
  rand := []
  font := fontDefault
  soundExpired := 0
  draws := 0
  agenda := []
  later := .repeats [.cpuTick]

end Sys2Proof.Machine
end

