-- ==== Sys2Proof/Machine/Ops.lean ====
section
/-! DEFINITION. The named operations over memory, registers, the stack, the framebuffer and STATUS: the primitives of 00_scope.md
R12, 20_memory.md R43, 10_state.md R20 to R27, and `raise` of 60_exceptions.md R161. -/

namespace Sys2Proof.Machine

/-- How a step of the machine ends. -/
abbrev Out := Host.Outcome State Fault Refusal

/-! ## Memory cells -/

/-- What a cell holds that nothing has written since the last `Load`, outside the image: the font table at 0x000 to 0x04F, 0x00
elsewhere (20_memory.md R41; 10_state.md R34, decision D13, log 18). -/
def Memory.unlisted (font : Vector Byte 80) (a : Nat) : Byte :=
  if h : a < 80 then font[a] else 0

/-- The byte listed for an address, if any. -/
def Memory.find? : Memory → Nat → Option Byte
  | [], _ => none
  | (k, b) :: rest, a => if k = a then some b else Memory.find? rest a

/-- `MEM[a]` for any `a` (R26, R43). -/
def Memory.read (font : Vector Byte 80) (m : Memory) (a : Nat) : Byte :=
  (Memory.find? m a).getD (Memory.unlisted font a)

/-- List `b` at `a`, keeping the addresses rising. -/
def Memory.insert : Memory → Nat → Byte → Memory
  | [], a, b => [(a, b)]
  | (k, c) :: rest, a, b =>
    if a < k then (a, b) :: (k, c) :: rest
    else if a = k then (a, b) :: rest
    else (k, c) :: Memory.insert rest a b

/-- Unlist an address. -/
def Memory.erase : Memory → Nat → Memory
  | [], _ => []
  | (k, c) :: rest, a => if k = a then rest else (k, c) :: Memory.erase rest a

/-- `MEM[a] <- b`: a byte equal to what an unlisted address reads as is not listed, so that equal memories are equal data. -/
def Memory.write (font : Vector Byte 80) (m : Memory) (a : Nat) (b : Byte) : Memory :=
  if b = Memory.unlisted font a then Memory.erase m a else Memory.insert m a b

/-- The canonical form from address `lo` up: strictly rising addresses of `MEM` (0x000 to 0xFFF, R40), each listed with a byte
other than what it reads as unlisted. -/
def Memory.wfFrom (font : Vector Byte 80) : Nat → Memory → Bool
  | _, [] => true
  | lo, (k, b) :: rest =>
    decide (lo ≤ k) && decide (k ≤ 0xFFF) && decide (b ≠ Memory.unlisted font k) && Memory.wfFrom font (k + 1) rest

/-- The canonical form of memory. -/
def Memory.wf (font : Vector Byte 80) (m : Memory) : Bool := Memory.wfFrom font 0 m

/-! ## Registers -/

/-- `V[x]` (R20). -/
def State.readV (s : State) (x : Reg) : Byte := s.v[x.toNat]'(Reg.lt x)

/-- `V[x] <- b` (R20). -/
def State.writeV (s : State) (x : Reg) (b : Byte) : State := { s with v := s.v.set x.toNat b (Reg.lt x) }

/-- `I <- a`: stores `a & 0xFFF` (R22; log 12). -/
def State.writeI (s : State) (a : Word) : State := { s with i := a &&& 0x0FFF#16 }

/-- `pc <- t`, without truncation (R23, decision D1, log 10). -/
def State.writePc (s : State) (t : Word) : State := { s with pc := t }

/-- `pc <- pc + 2` (R23). -/
def State.advance (s : State) : State := s.writePc (s.pc + 2)

/-- `if c then pc <- pc + 4 else pc <- pc + 2` (R94). -/
def State.skipIf (s : State) (c : Bool) : State := s.writePc (if c then s.pc + 4 else s.pc + 2)

/-- `DT <- b` (R25). -/
def State.writeDT (s : State) (b : Byte) : State := { s with dt := b }

/-- `ST <- b` (R25). -/
def State.writeST (s : State) (b : Byte) : State := { s with st := b }

/-! ## Errors (60_exceptions.md) -/

/-- The numeric code of a fatal condition (R160, decision D8). Code 0 is no error. -/
def FatalError.code : FatalError → BitVec 3
  | .imageTooLarge => 1
  | .addressOutOfRange => 2
  | .stackOverflow => 3
  | .stackUnderflow => 4
  | .unknownOpcode => 5

/-- The code of STATUS the host reads (R160, R184): 0 while `RUN`. -/
def Status.code : Status → BitVec 3
  | .run => 0
  | .halt e _ => e.code

/-- What a step raises: `E(info)` (R160). -/
structure Raised where
  error : FatalError
  info : Word
  deriving DecidableEq, Repr

/-- `raise E(info)`: STATUS becomes `HALT(E, info)`, and every other write of the step is discarded, because it is applied to the
state before the step (R12, R161, R168; log 8, log 9). There is no return from it but `Load` (R169). -/
def State.raise (s : State) (r : Raised) : Out := .next { s with status := .halt r.error r.info }

/-- End a step that may have raised: what it wrote is kept only if it did not raise (R161). -/
def State.commit (s : State) : Except Raised State → Out
  | .ok t => .next t
  | .error r => s.raise r

/-! ## Access to memory (20_memory.md R43) -/

/-- `MEM[a]` of a state. -/
def State.readByte (s : State) (a : Nat) : Byte := Memory.read s.font s.mem a

/-- `MEM[a] <- b` of a state, for an address that has been checked. -/
def State.writeByte (s : State) (a : Nat) (b : Byte) : State := { s with mem := Memory.write s.font s.mem a b }

/-- `MemRead(addr, 1)`: raises `AddressOutOfRange(addr)` when `addr > 0xFFF`; an address is never wrapped (R43). -/
def State.memRead (s : State) (a : Nat) : Except Raised Byte :=
  if a ≤ Config.maxAddr then .ok (s.readByte a) else .error ⟨.addressOutOfRange, BitVec.ofNat 16 a⟩

/-! ## Call stack (10_state.md R24) -/

/-- `Push(v)`: raises `StackOverflow(pc)` when `SP = 16` (R24, R82, R164). -/
def State.push (s : State) (w : Word) : Except Raised State :=
  if h : s.sp.val < 16 then
    .ok { s with stack := s.stack.set s.sp.val w h, sp := ⟨s.sp.val + 1, by omega⟩ }
  else .error ⟨.stackOverflow, s.pc⟩

/-- `Pop()`: raises `StackUnderflow(pc)` when `SP = 0` (R24, R80, R165). The entry it leaves is not cleared (log 20). -/
def State.pop (s : State) : Except Raised (Word × State) :=
  if h : 0 < s.sp.val then
    .ok (s.stack[s.sp.val - 1]'(by omega), { s with sp := ⟨s.sp.val - 1, by omega⟩ })
  else .error ⟨.stackUnderflow, s.pc⟩

/-! ## Display adapter (45_display.md R140) -/

/-- The framebuffer with all 2048 pixels 0. -/
def fbBlank : Framebuffer := Vector.replicate 64 (Vector.replicate 32 false)

/-- `FbClear()`. -/
def State.fbClear (s : State) : State := { s with fb := fbBlank }

/-- `FbGet(X, Y)`. -/
def fbGet (fb : Framebuffer) (X : Fin 64) (Y : Fin 32) : Bool := fb[X.val][Y.val]

/-- `FbToggle(X, Y)`. -/
def fbToggle (fb : Framebuffer) (X : Fin 64) (Y : Fin 32) : Framebuffer :=
  fb.set X.val (fb[X.val].set Y.val (!fbGet fb X Y))

/-! ## Random source (60_exceptions.md R179) -/

/-- The byte the next `RandByte()` returns: the oldest byte the host has supplied, else a free value (log 5). -/
def State.nextRandom (s : State) : Byte := s.rand.headD (Config.freeByte s.draws)

/-- The state after `RandByte()`: the draw is consumed (R156 (d)). -/
def State.consumeRandom (s : State) : State := { s with rand := s.rand.tail, draws := s.draws + 1 }

end Sys2Proof.Machine
end

