-- ==== Sys2Proof/Machine/Flags.lean ====
section
/-! DEFINITION. The values written to VF as a flag (10_state.md R21). The machine has no other flag. -/

namespace Sys2Proof.Machine

/-- A flag as the byte 1 or 0. -/
def flagByte (c : Bool) : Byte := if c then 1 else 0

/-- `8xy4`: carry out of bit 7, from the exact sum (R114). -/
def carryFlag (sum : Nat) : Byte := flagByte (decide (sum > 255))

/-- `8xy5`, `8xy7`: not borrow; 0 when the subtrahend exceeds the minuend, unsigned (R115, R117, R119). -/
def notBorrowFlag (minuend subtrahend : Byte) : Byte := flagByte (!decide (subtrahend.toNat > minuend.toNat))

/-- `8xy6`: bit 0 before the shift (R116). -/
def lowBitFlag (b : Byte) : Byte := b &&& 1

/-- `8xyE`: bit 7 before the shift (R118). -/
def highBitFlag (b : Byte) : Byte := (b >>> 7) &&& 1

/-- `Fx1E`: whether the unmasked sum exceeds 0xFFF (R131). -/
def indexOverflowFlag (sum : Nat) : Byte := flagByte (decide (sum > 0xFFF))

/-- `V[0xF] <- f` (R21). -/
def State.writeFlag (s : State) (f : Byte) : State := s.writeV VF f

end Sys2Proof.Machine
end

