-- ==== Sys2Proof/Machine/Alu.lean ====
section
/-! DEFINITION. Register-register arithmetic and logic (43_alu.md). The statements of a rule run in the order written, each reading
the state the one before it left (00_scope.md R13); this decides the results when `x` or `y` is 0xF (R120, decision D3, log 13). -/

namespace Sys2Proof.Machine

/-- `8xy0` (R110). -/
def execLdReg (x y : Reg) (s : State) : Out := .next (s.writeV x (s.readV y)).advance

/-- `8xy1` (R111). -/
def execOrReg (x y : Reg) (s : State) : Out := .next (s.writeV x (s.readV x ||| s.readV y)).advance

/-- `8xy2` (R112). -/
def execAndReg (x y : Reg) (s : State) : Out := .next (s.writeV x (s.readV x &&& s.readV y)).advance

/-- `8xy3` (R113). -/
def execXorReg (x y : Reg) (s : State) : Out := .next (s.writeV x (s.readV x ^^^ s.readV y)).advance

/-- `8xy4` (R114): both operands are read into the sum before VF is written. -/
def execAddReg (x y : Reg) (s : State) : Out :=
  let sum := (s.readV x).toNat + (s.readV y).toNat
  let t := s.writeFlag (carryFlag sum)
  .next (t.writeV x (BitVec.ofNat 8 sum)).advance

/-- `8xy5` (R115): the subtraction reads `V[x]` and `V[y]` again after the VF write. -/
def execSub (x y : Reg) (s : State) : Out :=
  let t := s.writeFlag (notBorrowFlag (s.readV x) (s.readV y))
  .next (t.writeV x (t.readV x - t.readV y)).advance

/-- `8xy6` (R116): logical shift by one of `V[x]`, read after the VF write; `y` is ignored (R66). -/
def execShr (x _y : Reg) (s : State) : Out :=
  let t := s.writeFlag (lowBitFlag (s.readV x))
  .next (t.writeV x (t.readV x >>> 1)).advance

/-- `8xy7` (R117): the subtraction reads `V[x]` and `V[y]` again after the VF write. -/
def execSubn (x y : Reg) (s : State) : Out :=
  let t := s.writeFlag (notBorrowFlag (s.readV y) (s.readV x))
  .next (t.writeV x (t.readV y - t.readV x)).advance

/-- `8xyE` (R118): shift by one of `V[x]`, read after the VF write; `y` is ignored (R66). -/
def execShl (x _y : Reg) (s : State) : Out :=
  let t := s.writeFlag (highBitFlag (s.readV x))
  .next (t.writeV x (t.readV x <<< 1)).advance

end Sys2Proof.Machine
end

