-- ==== Sys2Proof/Machine/Operands.lean ====
section
/-! DEFINITION. The operand forms: effective addresses and their range check (44_index_memory.md R136, 20_memory.md R50), jump
targets, key numbers, sprite coordinates, the pressed key. -/

namespace Sys2Proof.Machine

/-- `I + k`, the one addressing mode: a plain sum, not masked (R136, R43). -/
def State.dataAddr (s : State) (k : Nat) : Nat := s.i.toNat + k

/-- Whether the `count` bytes from `I` lie in memory: the highest address `I + count - 1` is at most 0xFFF; no byte needs none
(R50, R142 (d)). -/
def State.dataInRange (s : State) (count : Nat) : Bool :=
  decide (count = 0 ∨ s.dataAddr (count - 1) ≤ Config.maxAddr)

/-- The check of R50: `AddressOutOfRange(0x1000)` before anything is changed, or the result `t` of the instruction. -/
def State.ifInRange (s : State) (count : Nat) (t : State) : Out :=
  if s.dataInRange count then .next t else s.raise ⟨.addressOutOfRange, 0x1000⟩

/-- `nnn` as an absolute address: no sign extension, no scaling (R11, R68). -/
def absolute (nnn : BitVec 12) : Word := nnn.setWidth 16

/-- `zext_16` of a register (R11). -/
def zextByte (b : Byte) : Word := b.setWidth 16

/-- The register `V[k]` of a block transfer, `k` from 0 to 15 (R68: `x` is also a count in `Fx55` and `Fx65`). -/
def blockReg (k : Nat) : Reg := BitVec.ofNat 4 k

/-- `V[x] & 0xF`: the key number of `Ex9E` and `ExA1` (R150, R151, decision D12, log 17). -/
def keyNumber (b : Byte) : Fin 16 := ⟨b.toNat % 16, Nat.mod_lt _ (by decide)⟩

/-- `KEY[k]` (R28). -/
def State.keyPressed (s : State) (k : Fin 16) : Bool := s.keys[k.val]

/-- The numbers of the pressed keys, ascending. -/
def State.pressedKeys (s : State) : List (Fin 16) := (List.finRange 16).filter s.keyPressed

/-- `key_select(KEY)` of R152: a pressed key when there is one. With one key pressed it is that key (R152 (e)); with several the
spec leaves the choice open (R152 (d), decision D11), and it is free (log 6). -/
def keySelect : List (Fin 16) → Option (Fin 16)
  | [] => none
  | [k] => some k
  | ks => ks[Config.keyChoice ks % ks.length]?

/-- `(px + c) mod 64`: the column of sprite bit `c` (R142, decision D5, log 15). -/
def column (px c : Nat) : Fin 64 := ⟨(px + c) % 64, Nat.mod_lt _ (by decide)⟩

/-- `(py + r) mod 32`: the line of sprite row `r` (R142, decision D5, log 15). -/
def line (py r : Nat) : Fin 32 := ⟨(py + r) % 32, Nat.mod_lt _ (by decide)⟩

/-- Bit `7 - c` of a sprite row byte: `c = 0` is the leftmost pixel (R142 (i), decision D23, log 16). -/
def spriteBit (b : Byte) (c : Nat) : Bool := b.getLsbD (7 - c)

end Sys2Proof.Machine
end

