-- ==== Sys2Proof/Machine/Display.lean ====
section
/-! DEFINITION. Display instructions (45_display.md). -/

namespace Sys2Proof.Machine

/-- `00E0` (R141). -/
def execCls (s : State) : Out := .next s.fbClear.advance

/-- What a draw has done so far: the framebuffer, and whether a set sprite bit has met a set pixel. -/
structure Canvas where
  fb : Framebuffer
  hit : Bool
  deriving DecidableEq, Repr

/-- One bit of a sprite row (R142): a 0 bit neither changes nor tests its pixel; a 1 bit tests it, then toggles it. -/
def Canvas.drawBit (px py r : Nat) (b : Byte) (g : Canvas) (c : Nat) : Canvas :=
  if spriteBit b c then
    ⟨fbToggle g.fb (column px c) (line py r), g.hit || fbGet g.fb (column px c) (line py r)⟩
  else g

/-- One sprite row: `c` from 0 to 7 (R142). -/
def Canvas.drawRow (px py r : Nat) (b : Byte) (g : Canvas) : Canvas :=
  (List.range 8).foldl (Canvas.drawBit px py r b) g

/-- The sprite's `n` rows, read at `I + r`, `r` ascending (R142). -/
def State.drawRows (s : State) (px py n : Nat) : Canvas :=
  (List.range n).foldl (fun g r => g.drawRow px py r (s.readByte (s.dataAddr r))) ⟨s.fb, false⟩

/-- `Dxyn` (R142): the coordinates are read first, the range is checked, VF is set to 0 and then to 1 on a collision (decision D6,
log 16). -/
def execDrw (x y : Reg) (n : BitVec 4) (s : State) : Out :=
  let g := s.drawRows (s.readV x).toNat (s.readV y).toNat n.toNat
  s.ifInRange n.toNat ({ s with fb := g.fb }.writeFlag (flagByte g.hit)).advance

end Sys2Proof.Machine
end

