-- ==== Sys2Proof/Machine/Flow.lean ====
section
/-! DEFINITION. Jumps, call and return (40_flow.md). `pc` is the address of the instruction being executed (R23). -/

namespace Sys2Proof.Machine

/-- `00EE` (R80): `pc <- pop`, then `pc <- pc + 2`. -/
def execRet (s : State) : Out :=
  s.commit (match s.pop with
    | .ok (saved, t) => .ok (t.writePc saved).advance
    | .error r => .error r)

/-- `1nnn` (R81). -/
def execJp (nnn : BitVec 12) (s : State) : Out := .next (s.writePc (absolute nnn))

/-- `2nnn` (R82): pushes the address of this `2nnn`. -/
def execCall (nnn : BitVec 12) (s : State) : Out :=
  s.commit (match s.push s.pc with
    | .ok t => .ok (t.writePc (absolute nnn))
    | .error r => .error r)

/-- `Bnnn` (R83): `nnn + V[0]`, not truncated. -/
def execJpV0 (nnn : BitVec 12) (s : State) : Out := .next (s.writePc (absolute nnn + zextByte (s.readV 0)))

end Sys2Proof.Machine
end

