-- ==== Sys2Proof/Machine/Immediate.lean ====
section
/-! DEFINITION. Register-immediate instructions (42_immediate.md). -/

namespace Sys2Proof.Machine

/-- `6xkk` (R100). -/
def execLdByte (x : Reg) (kk : Byte) (s : State) : Out := .next (s.writeV x kk).advance

/-- `7xkk` (R101): modulo 256, no VF change. -/
def execAddByte (x : Reg) (kk : Byte) (s : State) : Out := .next (s.writeV x (s.readV x + kk)).advance

end Sys2Proof.Machine
end

