-- ==== Sys2Proof/Machine/IndexMemory.lean ====
section
/-! DEFINITION. Index register and memory instructions (44_index_memory.md). -/

namespace Sys2Proof.Machine

/-- `Annn` (R130). -/
def execLdI (nnn : BitVec 12) (s : State) : Out := .next (s.writeI (absolute nnn)).advance

/-- `Fx1E` (R131): the sum is taken before VF is written; VF is always written. -/
def execAddI (x : Reg) (s : State) : Out :=
  let sum := s.i.toNat + (s.readV x).toNat
  let t := s.writeFlag (indexOverflowFlag sum)
  .next (t.writeI (BitVec.ofNat 16 sum)).advance

/-- `Fx29` (R132): `V[x] * 5`, no nibble mask (decision D27, log 22). -/
def execLdF (x : Reg) (s : State) : Out := .next (s.writeI (BitVec.ofNat 16 ((s.readV x).toNat * 5))).advance

/-- The hundreds, tens and ones digits of a byte, each as a byte (R133 (a)). -/
def bcdDigit (b : Byte) (divisor : Nat) : Byte := BitVec.ofNat 8 (b.toNat / divisor % 10)

/-- `Fx33` (R133): hundreds at `I`, tens at `I + 1`, ones at `I + 2` (decision D22, log 21). -/
def execLdB (x : Reg) (s : State) : Out :=
  let b := s.readV x
  let t := ((s.writeByte (s.dataAddr 0) (bcdDigit b 100)).writeByte (s.dataAddr 1) (bcdDigit b 10)).writeByte
    (s.dataAddr 2) (bcdDigit b 1)
  s.ifInRange 3 t.advance

/-- `MemWrite(I + k, 1, V[k])` for the first `count` registers, ascending (R134). -/
def State.storeBlock (s : State) : Nat → State
  | 0 => s
  | k + 1 => let t := s.storeBlock k; t.writeByte (t.dataAddr k) (t.readV (blockReg k))

/-- `V[k] <- MemRead(I + k, 1)` for the first `count` registers, ascending (R135). -/
def State.loadBlock (s : State) : Nat → State
  | 0 => s
  | k + 1 => let t := s.loadBlock k; t.writeV (blockReg k) (t.readByte (t.dataAddr k))

/-- `Fx55` (R134): `V[0]` to `V[x]`, `x + 1` registers; `I` is unchanged. -/
def execStoreRegs (x : Reg) (s : State) : Out :=
  s.ifInRange (x.toNat + 1) (s.storeBlock (x.toNat + 1)).advance

/-- `Fx65` (R135): `V[0]` to `V[x]`, `x + 1` registers; `I` is unchanged. -/
def execLoadRegs (x : Reg) (s : State) : Out :=
  s.ifInRange (x.toNat + 1) (s.loadBlock (x.toNat + 1)).advance

end Sys2Proof.Machine
end

