-- ==== Sys2Proof/Machine/Input.lean ====
section
/-! DEFINITION. Keypad, timer and random instructions (46_input_timers_random.md). `KEY` is read as it stands at this tick
(decision D24, log 25). -/

namespace Sys2Proof.Machine

/-- `Ex9E` (R150). -/
def execSkp (x : Reg) (s : State) : Out := .next (s.skipIf (s.keyPressed (keyNumber (s.readV x))))

/-- `ExA1` (R151). -/
def execSknp (x : Reg) (s : State) : Out := .next (s.skipIf (!s.keyPressed (keyNumber (s.readV x))))

/-- `Fx0A` (R152): with no key pressed the tick changes nothing, and the next CPU tick runs the same word again. -/
def execLdVxK (x : Reg) (s : State) : Out :=
  match keySelect s.pressedKeys with
  | some k => .next (s.writeV x (BitVec.ofNat 8 k.val)).advance
  | none => .next s

/-- `Fx07` (R153). -/
def execLdVxDT (x : Reg) (s : State) : Out := .next (s.writeV x s.dt).advance

/-- `Fx15` (R154). -/
def execLdDTVx (x : Reg) (s : State) : Out := .next (s.writeDT (s.readV x)).advance

/-- `Fx18` (R155). -/
def execLdSTVx (x : Reg) (s : State) : Out := .next (s.writeST (s.readV x)).advance

/-- `Cxkk` (R156): one fresh draw, and-ed with `kk`. -/
def execRnd (x : Reg) (kk : Byte) (s : State) : Out :=
  .next (s.consumeRandom.writeV x (s.nextRandom &&& kk)).advance

end Sys2Proof.Machine
end

