-- ==== Sys2Proof/Machine/Skip.lean ====
section
/-! DEFINITION. Conditional skips on registers (41_skip.md). -/

namespace Sys2Proof.Machine

/-- `3xkk` (R90). -/
def execSeByte (x : Reg) (kk : Byte) (s : State) : Out := .next (s.skipIf (s.readV x == kk))

/-- `4xkk` (R91). -/
def execSneByte (x : Reg) (kk : Byte) (s : State) : Out := .next (s.skipIf (s.readV x != kk))

/-- `5xy0` (R92). -/
def execSeReg (x y : Reg) (s : State) : Out := .next (s.skipIf (s.readV x == s.readV y))

/-- `9xy0` (R93). -/
def execSneReg (x y : Reg) (s : State) : Out := .next (s.skipIf (s.readV x != s.readV y))

end Sys2Proof.Machine
end

