-- ==== Sys2Proof/Machine/Tick.lean ====
section
/-! DEFINITION. The steps of the three agents (00_scope.md R5): the CPU tick (R6), the timer tick (60_exceptions.md R174), and the
host's actions (70_reset_and_hazards.md R190; 10_state.md R28, R29). -/

namespace Sys2Proof.Machine

/-! ## The CPU agent -/

/-- Phase FETCH: `MemRead(pc, 2)`, the lower address checked first; `pc` is not changed and may be odd
(20_memory.md R44, R46, decision D2, log 11). -/
def State.fetch (s : State) : Except Raised Word :=
  match s.memRead s.pc.toNat with
  | .error r => .error r
  | .ok hi =>
    match s.memRead (s.pc.toNat + 1) with
    | .error r => .error r
    | .ok lo => .ok (wordOfBytes hi lo)

/-- Phases DECODE and EXECUTE for a fetched word; no pattern raises `UnknownOpcode(op)` (R63, R65, R166, decision D25,
log 24). -/
def decodeAndExecute (op : Word) (s : State) : Out :=
  match decodeWord op with
  | .error _ => s.raise ⟨.unknownOpcode, op⟩
  | .ok i => exec i s

/-- `CpuTick()` (R6): a halted core ignores it (R171); else FETCH, DECODE, EXECUTE, the first error ending the tick (R167). -/
def cpuTick (s : State) : Out :=
  match s.status with
  | .halt _ _ => .next s
  | .run =>
    match s.fetch with
    | .error r => s.raise r
    | .ok op => decodeAndExecute op s

/-! ## The timer agent -/

/-- A counter that counts down to 0 and stays there (R174). -/
def countDown (b : Byte) : Byte := if b = 0 then 0 else b - 1

/-- `TimerTick()` (R174, R175): whatever STATUS is (R171, decision D10, log 23). -/
def timerTick (s : State) : State :=
  { s with dt := countDown s.dt, st := countDown s.st,
           soundExpired := if s.st = 1 then s.soundExpired + 1 else s.soundExpired }

/-! ## The host agent -/

/-- The listed cells of an image whose first byte lies at `a`: `MEM[a + j] <- image[j]` over unlisted memory (R190, R191). -/
def imageCells (font : Vector Byte 80) : Nat → List Byte → Memory
  | _, [] => []
  | a, b :: rest =>
    if b = Memory.unlisted font a then imageCells font (a + 1) rest else (a, b) :: imageCells font (a + 1) rest

/-- Part 1 of `Load`: the whole state rebuilt; the inputs and the output count are not touched (R190, R34; log 18, log 19). -/
def State.rebuild (s : State) : State :=
  { s with v := Vector.replicate 16 0, i := 0, pc := BitVec.ofNat 16 Config.progBase, stack := Vector.replicate 16 0, sp := 0,
           dt := 0, st := 0, mem := [], fb := fbBlank }

/-- `Load(image)` (R190): reset, then check, then copy. A refused image leaves the reset state halted with
`ImageTooLarge(min(len, 0xFFFF))` (R162, decision D15, log 9). -/
def load (image : List Byte) (s : State) : State :=
  if image.length > Config.maxImage then
    { s.rebuild with status := .halt .imageTooLarge (BitVec.ofNat 16 (min image.length 0xFFFF)) }
  else
    { s.rebuild with mem := imageCells s.font Config.progBase image, status := .run }

/-- The host changes key `k` (R28). -/
def setKey (k : Fin 16) (pressed : Bool) (s : State) : State := { s with keys := s.keys.set k.val pressed }

/-- The host supplies one random byte, consumed after those supplied before it (R29, R179, R184). -/
def supplyByte (b : Byte) (s : State) : State := { s with rand := s.rand ++ [b] }

/-! ## One step of whichever agent moves -/

/-- The step of an event's agent (R5, R7). -/
def act (e : Event) (s : State) : Out :=
  match e with
  | .cpuTick => cpuTick s
  | .timerTick => .next (timerTick s)
  | .setKey k pressed => .next (setKey k pressed s)
  | .supplyByte b => .next (supplyByte b s)
  | .load image => .next (load image s)

/-- The event the next step is: the oldest of the agenda, and after the agenda the first of what comes later. `none` is a schedule in
which no agent moves now (R7, R9 (d), decision D17; log 1). -/
def State.nextEvent (s : State) : Option Event :=
  match s.agenda, s.later with
  | e :: _, _ => some e
  | [], .repeats events => events.head?
  | [], .free n => Config.schedule n

/-- The state the moving agent steps from: the schedule without its next event. -/
def State.takeEvent (s : State) : State :=
  match s.agenda, s.later with
  | _ :: rest, _ => { s with agenda := rest }
  | [], .repeats events => { s with agenda := events.tail }
  | [], .free n => { s with later := .free (n + 1) }

/-- The next step: the next event's, on the state without that event; with no event, no agent moves (R7). -/
def nextStep (s : State) : Out :=
  match s.nextEvent with
  | some e => act e s.takeEvent
  | none => .next s.takeEvent

/-! ## Placing a word where the next fetch reads it -/

/-- Whether the next step is a CPU tick. -/
def State.cpuIsNext (s : State) : Bool := s.nextEvent == some .cpuTick

/-- `op` stored big-endian at the address the next fetch reads, with what the fetch needs: `pc` at an address a fetch can succeed
at (R44), STATUS `RUN` (R171), the CPU agent next (R7). Each is changed only if it is not so already. -/
def State.placeWord (s : State) (op : Word) : State :=
  let pc := if s.pc.toNat + 1 ≤ Config.maxAddr then s.pc else BitVec.ofNat 16 Config.progBase
  let t := { s with pc := pc, status := .run, agenda := if s.cpuIsNext then s.agenda else .cpuTick :: s.agenda }
  (t.writeByte pc.toNat (highByte op)).writeByte (pc.toNat + 1) (lowByte op)

end Sys2Proof.Machine
end

