-- ==== Sys2Proof/Machine/Step.lean ====
section
/-! DEFINITION. One step of the machine, and the placing of a word for it (log 1, log 2). -/

namespace Sys2Proof.Machine

/-- One atomic step of the agent whose turn it is (00_scope.md R5, R7). -/
def step (s : State) : Host.Outcome State Fault Refusal := nextStep s

/-- `s` with the instruction of bits `w` (numbered as spec/opcode_table.json numbers them, those above `nbits` zero) stored where
`step` fetches its next instruction. -/
def State.withFetchWord (s : State) (nbits w : Nat) : State := s.placeWord (BitVec.ofNat 16 (w % 2 ^ nbits))

end Sys2Proof.Machine
end

