-- ==== Sys2Proof/WellFormed.lean ====
section
/-! DEFINITION. What well-formed means here: the opcode table of 30_encoding.md R64 as masks and matches, the words it admits
(R65), and the images `Load` admits (R162, R191).

The operands of an `Instr` carry their range in their types (R61), so every term of `Instr` is well-formed. The checks that can
fail are on raw data: a 16-bit word that may match no row, and a byte sequence that may be too long to load. -/

namespace Sys2Proof

/-- One row of the table of R64: an instruction is selected exactly when `op & mask = pat`. -/
structure OpcodeRow where
  mnemonic : String
  mask : Word
  pat : Word
  deriving DecidableEq, Repr

/-- `op & mask = match` (R64). -/
def OpcodeRow.selects (r : OpcodeRow) (op : Word) : Bool := op &&& r.mask == r.pat

def exactAndFlowRows : List OpcodeRow := [
  ⟨"CLS", 0xFFFF#16, 0x00E0#16⟩,
  ⟨"RET", 0xFFFF#16, 0x00EE#16⟩,
  ⟨"JP_nnn", 0xF000#16, 0x1000#16⟩,
  ⟨"CALL_nnn", 0xF000#16, 0x2000#16⟩,
  ⟨"SE_Vx__kk", 0xF000#16, 0x3000#16⟩,
  ⟨"SNE_Vx__kk", 0xF000#16, 0x4000#16⟩,
  ⟨"SE_Vx__Vy", 0xF00F#16, 0x5000#16⟩,
  ⟨"LD_Vx__kk", 0xF000#16, 0x6000#16⟩,
  ⟨"ADD_Vx__kk", 0xF000#16, 0x7000#16⟩]

def regRegRows : List OpcodeRow := [
  ⟨"LD_Vx__Vy", 0xF00F#16, 0x8000#16⟩,
  ⟨"OR_Vx__Vy", 0xF00F#16, 0x8001#16⟩,
  ⟨"AND_Vx__Vy", 0xF00F#16, 0x8002#16⟩,
  ⟨"XOR_Vx__Vy", 0xF00F#16, 0x8003#16⟩,
  ⟨"ADD_Vx__Vy", 0xF00F#16, 0x8004#16⟩,
  ⟨"SUB_Vx__Vy", 0xF00F#16, 0x8005#16⟩,
  ⟨"SHR_Vx", 0xF00F#16, 0x8006#16⟩,
  ⟨"SUBN_Vx__Vy", 0xF00F#16, 0x8007#16⟩,
  ⟨"SHL_Vx", 0xF00F#16, 0x800E#16⟩,
  ⟨"SNE_Vx__Vy", 0xF00F#16, 0x9000#16⟩]

def majorAtoERows : List OpcodeRow := [
  ⟨"LD_I__nnn", 0xF000#16, 0xA000#16⟩,
  ⟨"JP_V0__nnn", 0xF000#16, 0xB000#16⟩,
  ⟨"RND_Vx__kk", 0xF000#16, 0xC000#16⟩,
  ⟨"DRW_Vx__Vy__n", 0xF000#16, 0xD000#16⟩,
  ⟨"SKP_Vx", 0xF0FF#16, 0xE09E#16⟩,
  ⟨"SKNP_Vx", 0xF0FF#16, 0xE0A1#16⟩]

def majorFRows : List OpcodeRow := [
  ⟨"LD_Vx__DT", 0xF0FF#16, 0xF007#16⟩,
  ⟨"LD_Vx__K", 0xF0FF#16, 0xF00A#16⟩,
  ⟨"LD_DT__Vx", 0xF0FF#16, 0xF015#16⟩,
  ⟨"LD_ST__Vx", 0xF0FF#16, 0xF018#16⟩,
  ⟨"ADD_I__Vx", 0xF0FF#16, 0xF01E#16⟩,
  ⟨"LD_F__Vx", 0xF0FF#16, 0xF029#16⟩,
  ⟨"LD_B__Vx", 0xF0FF#16, 0xF033#16⟩,
  ⟨"LD__I___Vx", 0xF0FF#16, 0xF055#16⟩,
  ⟨"LD_Vx___I", 0xF0FF#16, 0xF065#16⟩]

/-- The 34 rows of R64, in the table's order, mnemonics as spec/opcode_table.json spells them. -/
def opcodeTable : List OpcodeRow := exactAndFlowRows ++ regRegRows ++ majorAtoERows ++ majorFRows

/-- A word is well-formed when some row selects it; every other word is an unknown opcode (R65). -/
def wordWellFormed (op : Word) : Bool := opcodeTable.any (·.selects op)

/-- `len(image) <= 3584` (R162, R191). There is no other validation of an image (R191). -/
def imageWellFormed (image : List Byte) : Bool := decide (image.length ≤ Config.maxImage)

end Sys2Proof
end

