-- ==== Sys2Proof/Safety.lean ====
section
/-! DEFINITION. The terms claims are stated in: the parts of the state and what it is for a step to change only some of them
(00_scope.md R14), what each instruction may write (10_state.md R33), the invariants of the state, the pixels of a sprite
(45_display.md R143), the quiescent state (70_reset_and_hazards.md R205). -/

namespace Sys2Proof.Machine

/-! ## Parts of the state -/

/-- One place of the state: a register, a byte of memory, a pixel, a stack entry, a key, and so on. -/
inductive Part where
  | reg (x : Reg)
  | index
  | pc
  | stackEntry (k : Fin 16)
  | sp
  | delay
  | sound
  | byteAt (a : Nat)
  | pixel (X : Fin 64) (Y : Fin 32)
  | status
  | key (k : Fin 16)
  | randomInput
  | fontTable
  | soundExpired
  | draws
  | schedule
  deriving DecidableEq, Repr

/-- The place holds after what it held before. Memory is read one byte at a time, through the machine's own read. -/
def Part.Kept (s t : State) : Part → Prop
  | .reg x => t.readV x = s.readV x
  | .index => t.i = s.i
  | .pc => t.pc = s.pc
  | .stackEntry k => t.stack[k.val] = s.stack[k.val]
  | .sp => t.sp = s.sp
  | .delay => t.dt = s.dt
  | .sound => t.st = s.st
  | .byteAt a => t.readByte a = s.readByte a
  | .pixel X Y => fbGet t.fb X Y = fbGet s.fb X Y
  | .status => t.status = s.status
  | .key k => t.keyPressed k = s.keyPressed k
  | .randomInput => t.rand = s.rand
  | .fontTable => t.font = s.font
  | .soundExpired => t.soundExpired = s.soundExpired
  | .draws => t.draws = s.draws
  | .schedule => t.agenda = s.agenda ∧ t.later = s.later

/-- Every place outside `written` is kept: the frame of a step. -/
def ChangesOnly (s t : State) (written : Part → Prop) : Prop := ∀ p, ¬ written p → p.Kept s t

/-- The pixels of the sprite of `n` rows at `I`, with its corner at `(V[x], V[y])`: the set `S` of R143. -/
def SpriteSet (s : State) (x y : Reg) (n : BitVec 4) (X : Fin 64) (Y : Fin 32) : Prop :=
  ∃ r c : Nat, r < n.toNat ∧ c < 8 ∧ (s.readByte (s.i.toNat + r)).getLsbD (7 - c) = true ∧
    X.val = ((s.readV x).toNat + c) % 64 ∧ Y.val = ((s.readV y).toNat + r) % 32

/-- What the rule of each instruction writes, STATUS on an error apart (R33 and the rules of 40_flow.md to
46_input_timers_random.md): the reading of the effect column as complete that R14 makes
(decision D4, log 14). -/
def MayWrite (s : State) : Instr → Part → Prop
  | .cls, p => p = .pc ∨ ∃ X Y, p = .pixel X Y
  | .ret, p => p = .pc ∨ p = .sp
  | .jp _, p => p = .pc
  | .call _, p => p = .pc ∨ p = .sp ∨ ∃ k, k.val = s.sp.val ∧ p = .stackEntry k
  | .seByte _ _, p => p = .pc
  | .sneByte _ _, p => p = .pc
  | .seReg _ _, p => p = .pc
  | .ldByte x _, p => p = .pc ∨ p = .reg x
  | .addByte x _, p => p = .pc ∨ p = .reg x
  | .ldReg x _, p => p = .pc ∨ p = .reg x
  | .orReg x _, p => p = .pc ∨ p = .reg x
  | .andReg x _, p => p = .pc ∨ p = .reg x
  | .xorReg x _, p => p = .pc ∨ p = .reg x
  | .addReg x _, p => p = .pc ∨ p = .reg x ∨ p = .reg VF
  | .sub x _, p => p = .pc ∨ p = .reg x ∨ p = .reg VF
  | .shr x _, p => p = .pc ∨ p = .reg x ∨ p = .reg VF
  | .subn x _, p => p = .pc ∨ p = .reg x ∨ p = .reg VF
  | .shl x _, p => p = .pc ∨ p = .reg x ∨ p = .reg VF
  | .sneReg _ _, p => p = .pc
  | .ldI _, p => p = .pc ∨ p = .index
  | .jpV0 _, p => p = .pc
  | .rnd x _, p => p = .pc ∨ p = .reg x ∨ p = .randomInput ∨ p = .draws
  | .drw x y n, p => p = .pc ∨ p = .reg VF ∨ ∃ X Y, SpriteSet s x y n X Y ∧ p = .pixel X Y
  | .skp _, p => p = .pc
  | .sknp _, p => p = .pc
  | .ldVxDT x, p => p = .pc ∨ p = .reg x
  | .ldVxK x, p => p = .pc ∨ p = .reg x
  | .ldDTVx _, p => p = .pc ∨ p = .delay
  | .ldSTVx _, p => p = .pc ∨ p = .sound
  | .addI _, p => p = .pc ∨ p = .index ∨ p = .reg VF
  | .ldF _, p => p = .pc ∨ p = .index
  | .ldB _, p => p = .pc ∨ ∃ k, k < 3 ∧ p = .byteAt (s.dataAddr k)
  | .storeRegs x, p => p = .pc ∨ ∃ k, k ≤ x.toNat ∧ p = .byteAt (s.dataAddr k)
  | .loadRegs x, p => p = .pc ∨ ∃ r : Reg, r.toNat ≤ x.toNat ∧ p = .reg r

/-! ## Invariants -/

/-- Memory is in its canonical form. -/
def State.MemCanonical (s : State) : Prop := Memory.wf s.font s.mem = true

/-- The upper 4 bits of the container of `I` are 0 (R22). -/
def State.IndexIs12Bits (s : State) : Prop := s.i.toNat ≤ 0xFFF

/-- The largest value `pc` can hold is 0x10FE (R23). -/
def State.PcBounded (s : State) : Prop := s.pc.toNat ≤ 0x10FE

/-- Every valid stack entry is an address at which a fetch succeeded, 0x000 to 0xFFE (R24). -/
def State.StackHoldsFetchAddresses (s : State) : Prop := ∀ k : Fin 16, k.val < s.sp.val → (s.stack[k.val]).toNat ≤ 0xFFE

/-- The four facts the spec states of every reachable state. -/
structure State.Inv (s : State) : Prop where
  memCanonical : s.MemCanonical
  indexIs12Bits : s.IndexIs12Bits
  pcBounded : s.PcBounded
  stackHoldsFetchAddresses : s.StackHoldsFetchAddresses

/-- STATUS tells the truth about why the core halted (R160, R162 to R166): the recorded value is of the stated kind; for the two stack
errors it is `pc`, with `SP` still full or empty; after a refused image `pc` is 0x200 (decision D15, log 9). The bound 0x10FE on an
address is the bound of `pc` (decision D1, log 10). -/
def State.HaltRecordTrue (s : State) : Prop :=
  match s.status with
  | .run => True
  | .halt .imageTooLarge info => 3584 < info.toNat ∧ s.pc = 0x200
  | .halt .addressOutOfRange info => 0x1000 ≤ info.toNat ∧ info.toNat ≤ 0x10FE
  | .halt .stackOverflow info => info = s.pc ∧ s.sp.val = 16
  | .halt .stackUnderflow info => info = s.pc ∧ s.sp.val = 0
  | .halt .unknownOpcode info => wordWellFormed info = false

/-! ## States -/

/-- STATUS is `HALT`. -/
def State.Halted (s : State) : Prop := ∃ e info, s.status = .halt e info

/-- The next step is a CPU tick of a running core. -/
def State.CpuReady (s : State) : Prop := s.status = .run ∧ s.cpuIsNext = true

/-- The word the next CPU tick fetches, where the fetch succeeds (R44). -/
def State.wordAtPc (s : State) : Word := wordOfBytes (s.readByte s.pc.toNat) (s.readByte (s.pc.toNat + 1))

/-- A quiescent state (R205): running, and the word at `pc` is `1nnn` with `nnn = pc`. -/
def State.Quiescent (s : State) : Prop :=
  s.status = .run ∧ s.pc.toNat ≤ 0xFFE ∧ ∃ nnn : BitVec 12, decodeWord s.wordAtPc = .ok (.jp nnn) ∧ nnn.toNat = s.pc.toNat

/-! ## Schedules and runs (00_scope.md R7, R9 (d)) -/

/-- The `j`-th event of what comes after the agenda, from 0. -/
def Later.eventAt : Later → Nat → Option Event
  | .repeats events, j => events[j % events.length]?
  | .free n, j => Config.schedule (n + j)

/-- The `j`-th event of the schedule, from 0: `none` where no agent moves. -/
def State.eventAt (s : State) (j : Nat) : Option Event :=
  if j < s.agenda.length then s.agenda[j]? else s.later.eventAt (j - s.agenda.length)

/-- The first `k` events of the schedule. -/
def State.upcoming (s : State) (k : Nat) : List (Option Event) := (List.range k).map s.eventAt

/-- The given events' steps in the order given, whatever schedule the state holds. -/
def perform : List (Option Event) → State → Out
  | [], s => .next s
  | none :: rest, s => perform rest s
  | some e :: rest, s =>
    match act e s with
    | .next t => perform rest t
    | .fault r => .fault r
    | .refused r => .refused r

/-- `k` steps: the host's run of this machine, at the machine's own types. -/
def runSteps : Nat → State → Out
  | 0, s => .next s
  | k + 1, s =>
    match step s with
    | .next t => runSteps k t
    | .fault r => .fault r
    | .refused r => .refused r

end Sys2Proof.Machine
end

