-- ==== Sys2Proof/Certificates/Slice0/Obligations.lean ====
section
/-! DEFINITION. The statements for the provers. Each docstring names the rules of spec/ it formalises; where a clause rests on a
decision of the spec's own (92_eei_decisions.md D<n>) or on a choice of this model, it says so. `ChangesOnly s t w` is the frame:
every place of the state outside `w` holds in `t` what it held in `s`, memory read byte by byte. -/

open Sys2Proof Sys2Proof.Machine

/-! ## Encoding and decoding (30_encoding.md) -/

/-- The fields of an instruction word are the bits R61 gives them, and overlap as it says. -/
def Obligations.FieldsAreTheBitsOfTheWord : Prop :=
  ∀ op : Word,
    (opMajor op).toNat = op.toNat / 2 ^ 12 ∧
    (opX op).toNat = op.toNat / 2 ^ 8 % 16 ∧
    (opY op).toNat = op.toNat / 2 ^ 4 % 16 ∧
    (opN op).toNat = op.toNat % 16 ∧
    (opKK op).toNat = op.toNat % 256 ∧
    (opNNN op).toNat = op.toNat % 4096 ∧
    (opKK op).toNat = (opY op).toNat * 16 + (opN op).toNat ∧
    (opNNN op).toNat = (opX op).toNat * 256 + (opKK op).toNat

/-- Words written out from the table of R64, one or more of each format, decode to the instruction they stand for. -/
def Obligations.WordsWrittenOutDecode : Prop :=
  decodeWord 0b0000000011100000#16 = .ok .cls ∧
  decodeWord 0b0000000011101110#16 = .ok .ret ∧
  decodeWord 0b0010101010111100#16 = .ok (.call 0xABC) ∧
  decodeWord 0b0111001101011010#16 = .ok (.addByte 0x3 0x5A) ∧
  decodeWord 0b1000000111110101#16 = .ok (.sub 0x1 0xF) ∧
  decodeWord 0b1001000100100000#16 = .ok (.sneReg 0x1 0x2) ∧
  decodeWord 0b1101110100100111#16 = .ok (.drw 0xD 0x2 0x7) ∧
  decodeWord 0b1110010010100001#16 = .ok (.sknp 0x4) ∧
  decodeWord 0b1111101001100101#16 = .ok (.loadRegs 0xA)

/-- R63, R64: no bit of an encoding is dropped. Every instruction, with every operand, comes back from its word, and from its two
bytes at the head of any bytes. -/
def Obligations.DecodeOfEncodeIsTheInstruction : Prop :=
  ∀ (i : Instr) (rest : List Byte),
    decodeWord (encode i) = .ok i ∧ decodeBytes (encodeBytes i ++ rest) = .ok (i, rest)

/-- R63, R64: a word that decodes is the word of what it decodes to, so the decoder drops no bit. For `8xy6` and `8xyE` this rests on the
model's choice to keep the ignored `y` in `shr` and `shl` (log 28); R66 calls the 16 words of the 16 values of `y` the same
instruction, and this statement does not say otherwise. -/
def Obligations.EncodeOfDecodeIsTheWord : Prop :=
  ∀ (op : Word) (i : Instr), decodeWord op = .ok i → encode i = op

/-- R63, R65: the decoder accepts exactly the words some row of the table of R64 selects by its mask and match, and names every
other word as unknown. -/
def Obligations.DecoderAcceptsExactlyTheTableWords : Prop :=
  ∀ op : Word,
    (wordWellFormed op = true → ∃ i, decodeWord op = .ok i) ∧
    (wordWellFormed op = false → decodeWord op = .error (.unknownOpcode op))

/-- R63: "the patterns are disjoint": no word is selected by two rows of the table of R64. -/
def Obligations.NoWordMatchesTwoTableRows : Prop :=
  opcodeTable.Pairwise fun a b => ∀ op : Word, ¬ (a.selects op = true ∧ b.selects op = true)

/-! ## Fetch and the CPU tick (00_scope.md R6, 20_memory.md R44, 60_exceptions.md) -/

/-- R44: the fetched word is `(MEM[pc] << 8) | MEM[pc + 1]`; the fetch succeeds exactly up to 0xFFE, and what it raises above. That `pc`
can exceed 0xFFF is the spec's decision D1, and the recorded values are D8. -/
def Obligations.FetchReadsTheBigEndianWordAtPc : Prop :=
  ∀ s : State,
    (s.pc.toNat ≤ 0xFFE → ∃ w, s.fetch = .ok w ∧
      w.toNat = (s.readByte s.pc.toNat).toNat * 256 + (s.readByte (s.pc.toNat + 1)).toNat) ∧
    (s.pc.toNat = 0xFFF → s.fetch = .error ⟨.addressOutOfRange, 0x1000⟩) ∧
    (0xFFF < s.pc.toNat → s.fetch = .error ⟨.addressOutOfRange, s.pc⟩)

/-- R6: when a CPU tick is next, the core runs, and the word at `pc` decodes, the step is the execution of the decoded
instruction. The model takes the tick off its schedule (log 1). -/
def Obligations.StepRunsTheDecodedInstruction : Prop :=
  ∀ (s : State) (i : Instr), s.CpuReady → s.pc.toNat ≤ 0xFFE → decodeWord s.wordAtPc = .ok i →
    step s = exec i s.takeEvent

/-- R44, R163 (a), (b), with the spec's decision D1: a CPU tick whose fetch needs an address above 0xFFF halts the core, records the
first such address, and changes nothing else. -/
def Obligations.FetchOutsideMemoryHalts : Prop :=
  ∀ s : State, s.CpuReady → 0xFFE < s.pc.toNat →
    ∃ t info, step s = .next t ∧ t.status = .halt .addressOutOfRange info ∧ info.toNat = max s.pc.toNat 0x1000 ∧
      ChangesOnly s t (fun p => p = .status ∨ p = .schedule)

/-- R65, R166, with the spec's decision D25: a word no row of the table selects halts the core with the word as `info`; `pc` still
points at it and nothing else changes. -/
def Obligations.UnknownWordHalts : Prop :=
  ∀ s : State, s.CpuReady → s.pc.toNat ≤ 0xFFE → wordWellFormed s.wordAtPc = false →
    ∃ t, step s = .next t ∧ t.status = .halt .unknownOpcode s.wordAtPc ∧
      ChangesOnly s t (fun p => p = .status ∨ p = .schedule)

/-- R171, with the spec's decision D9: a CPU tick in `HALT` changes nothing. The model takes the tick off its schedule (log 1). -/
def Obligations.HaltedCoreIgnoresCpuTicks : Prop :=
  ∀ s : State, s.Halted → s.cpuIsNext = true → step s = .next s.takeEvent

/-- R169, with the spec's decision D9 on STATUS: "The only exit from `HALT` is a `Load(image)` by the host". That the step was a Load is
said as the model holds it, a Load as the next event of the schedule (log 1). -/
def Obligations.OnlyALoadLeavesTheHaltedState : Prop :=
  ∀ s t : State, s.Halted → step s = .next t → t.status ≠ s.status → ∃ image, s.nextEvent = some (.load image)

/-- The model's own reading (log 8), deduced from R161 and R168 and the spec's decisions D8 and D9: every error is a state the machine
is in, never a fault of the model, so no step ends the model's run. It also says that no instruction is refused. -/
def Obligations.EveryStepAnswersANextState : Prop := ∀ s : State, ∃ t, step s = .next t

/-- R161, R168, with the spec's decision D7: exceptions are precise. Whenever an instruction changes STATUS, it changes nothing
else. -/
def Obligations.AnInstructionThatHaltsChangesStatusAlone : Prop :=
  ∀ (i : Instr) (s t : State), exec i s = .next t → t.status ≠ s.status →
    ∃ e info, t = { s with status := .halt e info }

/-- R14, R33, with the spec's decision D4: the frame of all 34 instructions at once. An instruction writes what `MayWrite` lists for
it, or it raises and writes STATUS alone. -/
def Obligations.InstructionsWriteOnlyWhatTheirRuleLists : Prop :=
  ∀ (i : Instr) (s t : State), exec i s = .next t →
    ChangesOnly s t (MayWrite s i) ∨ ChangesOnly s t (fun p => p = .status)

/-! ## Invariants (10_state.md) -/

/-- The invariants hold right after reset. The reset memory, stack and STATUS rest on the spec's decisions D13, D16, D9. -/
def Obligations.ResetMeetsTheInvariants : Prop := State.reset.Inv ∧ State.reset.HaltRecordTrue

/-- R22, R23, R24: the upper bits of `I` are 0, `pc` is at most 0x10FE, stack entries are fetch addresses, memory is canonical, in
every state a step reaches from one where they hold, whatever agent moves. The bound on `pc` rests on the spec's decision D1. -/
def Obligations.EveryStepKeepsTheInvariant : Prop := ∀ s t : State, s.Inv → step s = .next t → t.Inv

/-- R160, R162 to R166: STATUS never lies about the error, whatever agent moves. For the two stack errors the recorded value is still
`pc`, and `SP` is still full or empty; for the other three `HaltRecordTrue` bounds the recorded value. The recorded values are the
spec's decision D8; `pc` = 0x200 after a refused image is D15 (log 9); the bound 0x10FE on a recorded address is D1 (log 10). -/
def Obligations.EveryStepKeepsTheHaltRecordTrue : Prop :=
  ∀ s t : State, s.Inv → s.HaltRecordTrue → step s = .next t → t.HaltRecordTrue

/-! ## Jumps, call and return (40_flow.md) -/

/-- `1nnn`, R81: (a) any `nnn`; (b) a jump to itself changes no state; (c) 0xFFF is accepted and the next fetch raises, with the spec's
decision D1. -/
def Obligations.JumpSetsPc : Prop :=
  ∀ (s : State) (nnn : BitVec 12),
    decodeWord (0x1#4 ++ nnn) = .ok (.jp nnn) ∧
    ∃ t, exec (.jp nnn) s = .next t ∧ t.pc.toNat = nnn.toNat ∧ ChangesOnly s t (fun p => p = .pc) ∧
      (nnn.toNat = s.pc.toNat → t = s) ∧
      (nnn = 0xFFF → t.fetch = .error ⟨.addressOutOfRange, 0x1000⟩)

/-- `Bnnn`, R83, with the spec's decision D1: `nnn + V[0]` is not truncated. -/
def Obligations.JumpWithOffsetAddsV0 : Prop :=
  ∀ (s : State) (nnn : BitVec 12),
    decodeWord (0xB#4 ++ nnn) = .ok (.jpV0 nnn) ∧
    ∃ t, exec (.jpV0 nnn) s = .next t ∧ t.pc.toNat = nnn.toNat + (s.readV 0).toNat ∧ ChangesOnly s t (fun p => p = .pc)

/-- `2nnn`, R82: with room on the stack, the call's own address is pushed. -/
def Obligations.CallPushesItsOwnAddress : Prop :=
  ∀ (s : State) (nnn : BitVec 12) (h : s.sp.val < 16),
    ∃ t, exec (.call nnn) s = .next t ∧ t.stack[s.sp.val] = s.pc ∧ t.sp.val = s.sp.val + 1 ∧ t.pc.toNat = nnn.toNat ∧
      ChangesOnly s t (fun p => p = .pc ∨ p = .sp ∨ p = .stackEntry ⟨s.sp.val, h⟩)

/-- `00EE`, R80: with an entry on the stack, `pc` becomes the entry popped, plus 2. -/
def Obligations.ReturnContinuesAfterTheCall : Prop :=
  ∀ (s : State) (k : Fin 16), s.sp.val = k.val + 1 →
    ∃ t, exec .ret s = .next t ∧ t.pc = s.stack[k.val] + 2 ∧ t.sp.val = k.val ∧
      ChangesOnly s t (fun p => p = .pc ∨ p = .sp)

/-- R164, R165: a call with 16 entries and a return with none halt the core with their own address, and nothing else changes. The
recorded values are the spec's decision D8. -/
def Obligations.StackErrorsHalt : Prop :=
  ∀ (s : State) (nnn : BitVec 12),
    (s.sp.val = 16 → exec (.call nnn) s = .next { s with status := .halt .stackOverflow s.pc }) ∧
    (s.sp.val = 0 → exec .ret s = .next { s with status := .halt .stackUnderflow s.pc })

/-- R80, R82: "each `00EE` after a call restores exactly the PC value saved by its matching call": at every depth, a return right
after a call continues after the call, with the stack below as it was. -/
def Obligations.ReturnUndoesCall : Prop :=
  ∀ (s t : State) (nnn : BitVec 12), s.sp.val < 16 → exec (.call nnn) s = .next t →
    ∃ u, exec .ret t = .next u ∧ u.pc = s.pc + 2 ∧ u.sp = s.sp ∧
      ∀ k : Fin 16, k.val < s.sp.val → u.stack[k.val] = s.stack[k.val]

/-! ## Skips (41_skip.md, 46_input_timers_random.md) -/

/-- `3xkk` and `4xkk`, R90, R91, with their corner case (d), which rests on the spec's decision D1: a skip taken at 0xFFE leaves a `pc`
whose fetch raises. -/
def Obligations.SkipsOnAnImmediate : Prop :=
  ∀ (s : State) (x : Reg) (kk : Byte),
    decodeWord (0x3#4 ++ x ++ kk) = .ok (.seByte x kk) ∧ decodeWord (0x4#4 ++ x ++ kk) = .ok (.sneByte x kk) ∧
    (∃ t, exec (.seByte x kk) s = .next t ∧ ChangesOnly s t (fun p => p = .pc) ∧
      ((s.readV x).toNat = kk.toNat → t.pc = s.pc + 4 ∧
        (s.pc = 0xFFE → t.pc = 0x1002 ∧ t.fetch = .error ⟨.addressOutOfRange, 0x1002⟩)) ∧
      ((s.readV x).toNat ≠ kk.toNat → t.pc = s.pc + 2)) ∧
    (∃ t, exec (.sneByte x kk) s = .next t ∧ ChangesOnly s t (fun p => p = .pc) ∧
      ((s.readV x).toNat ≠ kk.toNat → t.pc = s.pc + 4 ∧
        (s.pc = 0xFFE → t.pc = 0x1002 ∧ t.fetch = .error ⟨.addressOutOfRange, 0x1002⟩)) ∧
      ((s.readV x).toNat = kk.toNat → t.pc = s.pc + 2))

/-- `5xy0` and `9xy0`, R92, R93: `n` must be 0; with `x = y` the first always skips and the second never does. -/
def Obligations.SkipsOnTwoRegisters : Prop :=
  ∀ (s : State) (x y : Reg) (n : BitVec 4),
    decodeWord (0x5#4 ++ x ++ y ++ 0x0#4) = .ok (.seReg x y) ∧ decodeWord (0x9#4 ++ x ++ y ++ 0x0#4) = .ok (.sneReg x y) ∧
    (n ≠ 0 → decodeWord (0x5#4 ++ x ++ y ++ n) = .error (.unknownOpcode (0x5#4 ++ x ++ y ++ n)) ∧
      decodeWord (0x9#4 ++ x ++ y ++ n) = .error (.unknownOpcode (0x9#4 ++ x ++ y ++ n))) ∧
    (∃ t, exec (.seReg x y) s = .next t ∧ ChangesOnly s t (fun p => p = .pc) ∧
      ((s.readV x).toNat = (s.readV y).toNat → t.pc = s.pc + 4) ∧
      ((s.readV x).toNat ≠ (s.readV y).toNat → t.pc = s.pc + 2) ∧ (x = y → t.pc = s.pc + 4)) ∧
    (∃ t, exec (.sneReg x y) s = .next t ∧ ChangesOnly s t (fun p => p = .pc) ∧
      ((s.readV x).toNat ≠ (s.readV y).toNat → t.pc = s.pc + 4) ∧
      ((s.readV x).toNat = (s.readV y).toNat → t.pc = s.pc + 2) ∧ (x = y → t.pc = s.pc + 2))

/-- `Ex9E` and `ExA1`, R150, R151: on the key whose number is the low 4 bits of `V[x]` (the spec's decision D12), exactly one of the
two skips. -/
def Obligations.SkipsOnAKey : Prop :=
  ∀ (s : State) (x : Reg) (k : Fin 16), k.val = (s.readV x).toNat % 16 →
    (∃ t, exec (.skp x) s = .next t ∧ ChangesOnly s t (fun p => p = .pc) ∧
      (s.keyPressed k = true → t.pc = s.pc + 4) ∧ (s.keyPressed k = false → t.pc = s.pc + 2)) ∧
    (∃ t, exec (.sknp x) s = .next t ∧ ChangesOnly s t (fun p => p = .pc) ∧
      (s.keyPressed k = false → t.pc = s.pc + 4) ∧ (s.keyPressed k = true → t.pc = s.pc + 2))

/-! ## Immediates, arithmetic and logic (42_immediate.md, 43_alu.md) -/

/-- `6xkk`, R100: any register, VF like the others. -/
def Obligations.LoadImmediateSetsVx : Prop :=
  ∀ (s : State) (x : Reg) (kk : Byte),
    decodeWord (0x6#4 ++ x ++ kk) = .ok (.ldByte x kk) ∧
    ∃ t, exec (.ldByte x kk) s = .next t ∧ t.readV x = kk ∧ t.pc = s.pc + 2 ∧
      ChangesOnly s t (fun p => p = .pc ∨ p = .reg x)

/-- `7xkk`, R101, every corner case: (a) modulo 256; (b) adding `kk` is subtracting `256 - kk`; (c) `kk = 0` changes `pc` alone; (d)
VF is untouched unless it is the destination. -/
def Obligations.AddImmediateIsModulo256AndWritesNoFlag : Prop :=
  ∀ (s : State) (x : Reg) (kk : Byte),
    decodeWord (0x7#4 ++ x ++ kk) = .ok (.addByte x kk) ∧
    ∃ t, exec (.addByte x kk) s = .next t ∧ (t.readV x).toNat = ((s.readV x).toNat + kk.toNat) % 256 ∧ t.pc = s.pc + 2 ∧
      ChangesOnly s t (fun p => p = .pc ∨ p = .reg x) ∧ (x ≠ VF → t.readV VF = s.readV VF) ∧
      (t.readV x).toNat = ((s.readV x).toNat + 256 - (256 - kk.toNat)) % 256 ∧
      (kk = 0 → ChangesOnly s t (fun p => p = .pc))

/-- `8xy0`, `8xy1`, `8xy2`, `8xy3`, R110 to R113: bit by bit, VF neither written nor cleared unless it is the destination. -/
def Obligations.CopyAndLogicWriteVxOnly : Prop :=
  ∀ (s : State) (x y : Reg),
    (decodeWord (0x8#4 ++ x ++ y ++ 0x0#4) = .ok (.ldReg x y) ∧
      ∃ t, exec (.ldReg x y) s = .next t ∧ t.readV x = s.readV y ∧ t.pc = s.pc + 2 ∧
        ChangesOnly s t (fun p => p = .pc ∨ p = .reg x) ∧ (x = y → ChangesOnly s t (fun p => p = .pc))) ∧
    (decodeWord (0x8#4 ++ x ++ y ++ 0x1#4) = .ok (.orReg x y) ∧
      ∃ t, exec (.orReg x y) s = .next t ∧
        (∀ k, (t.readV x).getLsbD k = ((s.readV x).getLsbD k || (s.readV y).getLsbD k)) ∧ t.pc = s.pc + 2 ∧
        ChangesOnly s t (fun p => p = .pc ∨ p = .reg x) ∧ (x = y → t.readV x = s.readV x)) ∧
    (decodeWord (0x8#4 ++ x ++ y ++ 0x2#4) = .ok (.andReg x y) ∧
      ∃ t, exec (.andReg x y) s = .next t ∧
        (∀ k, (t.readV x).getLsbD k = ((s.readV x).getLsbD k && (s.readV y).getLsbD k)) ∧ t.pc = s.pc + 2 ∧
        ChangesOnly s t (fun p => p = .pc ∨ p = .reg x) ∧ (x = y → t.readV x = s.readV x)) ∧
    (decodeWord (0x8#4 ++ x ++ y ++ 0x3#4) = .ok (.xorReg x y) ∧
      ∃ t, exec (.xorReg x y) s = .next t ∧
        (∀ k, (t.readV x).getLsbD k = ((s.readV x).getLsbD k ^^ (s.readV y).getLsbD k)) ∧ t.pc = s.pc + 2 ∧
        ChangesOnly s t (fun p => p = .pc ∨ p = .reg x) ∧ (x = y → t.readV x = 0))

/-- `8xy4`, R114 and R120: the sum of the old values, VF the carry; with the spec's decision D3, when VF is the destination the sum
overwrites the carry. -/
def Obligations.AddWritesSumAndCarry : Prop :=
  ∀ (s : State) (x y : Reg),
    decodeWord (0x8#4 ++ x ++ y ++ 0x4#4) = .ok (.addReg x y) ∧
    ∃ t, exec (.addReg x y) s = .next t ∧
      (t.readV x).toNat = ((s.readV x).toNat + (s.readV y).toNat) % 256 ∧
      (x ≠ VF → (s.readV x).toNat + (s.readV y).toNat > 255 → t.readV VF = 1) ∧
      (x ≠ VF → (s.readV x).toNat + (s.readV y).toNat ≤ 255 → t.readV VF = 0) ∧
      t.pc = s.pc + 2 ∧ ChangesOnly s t (fun p => p = .pc ∨ p = .reg x ∨ p = .reg VF)

/-- `8xy5`, R115 and R120, with the spec's decision D3 for the forms that name VF. `a`, `b` are the old `V[x]`, `V[y]`, and `f` the
not-borrow. -/
def Obligations.SubtractWritesDifferenceAndNotBorrow : Prop :=
  ∀ (s : State) (x y : Reg) (a b f : Nat), a = (s.readV x).toNat → b = (s.readV y).toNat → f = (if b > a then 0 else 1) →
    ∃ t, exec (.sub x y) s = .next t ∧
      (x ≠ VF → (t.readV VF).toNat = f) ∧
      (x ≠ VF → y ≠ VF → (t.readV x).toNat = (a + 256 - b) % 256) ∧
      (x ≠ VF → y = VF → (t.readV x).toNat = (a + 256 - f) % 256) ∧
      (x = VF → y ≠ VF → (t.readV VF).toNat = (f + 256 - b) % 256) ∧
      (x = VF → y = VF → t.readV VF = 0) ∧
      t.pc = s.pc + 2 ∧ ChangesOnly s t (fun p => p = .pc ∨ p = .reg x ∨ p = .reg VF)

/-- `8xy7`, R117 and R120, with the spec's decision D3 for the forms that name VF. `a`, `b` are the old `V[x]`, `V[y]`, and `f` the
not-borrow. -/
def Obligations.ReverseSubtractWritesDifferenceAndNotBorrow : Prop :=
  ∀ (s : State) (x y : Reg) (a b f : Nat), a = (s.readV x).toNat → b = (s.readV y).toNat → f = (if b < a then 0 else 1) →
    ∃ t, exec (.subn x y) s = .next t ∧
      (x ≠ VF → (t.readV VF).toNat = f) ∧
      (x ≠ VF → y ≠ VF → (t.readV x).toNat = (b + 256 - a) % 256) ∧
      (x ≠ VF → y = VF → (t.readV x).toNat = (f + 256 - a) % 256) ∧
      (x = VF → y ≠ VF → (t.readV VF).toNat = (b + 256 - f) % 256) ∧
      (x = VF → y = VF → t.readV VF = 0) ∧
      t.pc = s.pc + 2 ∧ ChangesOnly s t (fun p => p = .pc ∨ p = .reg x ∨ p = .reg VF)

/-- `8xy6`, R116 and R120, with the spec's decision D3 for `x = 0xF`: whatever `y`, a logical shift of `V[x]` by one. -/
def Obligations.ShiftRightHalvesVx : Prop :=
  ∀ (s : State) (x y : Reg),
    ∃ t, exec (.shr x y) s = .next t ∧
      (x ≠ VF → (t.readV x).toNat = (s.readV x).toNat / 2 ∧ (t.readV VF).toNat = (s.readV x).toNat % 2) ∧
      (x = VF → t.readV VF = 0) ∧
      t.pc = s.pc + 2 ∧ ChangesOnly s t (fun p => p = .pc ∨ p = .reg x ∨ p = .reg VF)

/-- `8xyE`, R118 and R120, with the spec's decision D3 for `x = 0xF`: whatever `y`, a shift of `V[x]` by one modulo 256. -/
def Obligations.ShiftLeftDoublesVx : Prop :=
  ∀ (s : State) (x y : Reg),
    ∃ t, exec (.shl x y) s = .next t ∧
      (x ≠ VF → (t.readV x).toNat = (s.readV x).toNat * 2 % 256 ∧ (t.readV VF).toNat = (s.readV x).toNat / 128) ∧
      (x = VF → (t.readV VF).toNat = 2 * ((s.readV VF).toNat / 128)) ∧
      t.pc = s.pc + 2 ∧ ChangesOnly s t (fun p => p = .pc ∨ p = .reg x ∨ p = .reg VF)

/-! ## Index register and memory (44_index_memory.md) -/

/-- `Annn`, R130: every `nnn`. -/
def Obligations.LoadIndexSetsI : Prop :=
  ∀ (s : State) (nnn : BitVec 12),
    decodeWord (0xA#4 ++ nnn) = .ok (.ldI nnn) ∧
    ∃ t, exec (.ldI nnn) s = .next t ∧ t.i.toNat = nnn.toNat ∧ t.pc = s.pc + 2 ∧
      ChangesOnly s t (fun p => p = .pc ∨ p = .index)

/-- `Fx1E`, R131: the old `V[x]` is added, `I` is masked to 12 bits, VF is always written. The result is always a legal address. That
the old VF is the addend when `x = 0xF` is the spec's decision D3. -/
def Obligations.AddToIndexMasksAndFlagsOverflow : Prop :=
  ∀ (s : State) (x : Reg),
    decodeWord (0xF#4 ++ x ++ 0x1E#8) = .ok (.addI x) ∧
    ∃ t, exec (.addI x) s = .next t ∧ t.i.toNat = (s.i.toNat + (s.readV x).toNat) % 0x1000 ∧
      (s.i.toNat + (s.readV x).toNat > 0xFFF → t.readV VF = 1) ∧
      (s.i.toNat + (s.readV x).toNat ≤ 0xFFF → t.readV VF = 0) ∧
      t.pc = s.pc + 2 ∧ ChangesOnly s t (fun p => p = .pc ∨ p = .index ∨ p = .reg VF)

/-- `Fx29`, R132, with the spec's decision D27: five times the whole of `V[x]`. -/
def Obligations.GlyphAddressIsFiveTimesVx : Prop :=
  ∀ (s : State) (x : Reg),
    ∃ t, exec (.ldF x) s = .next t ∧ t.i.toNat = 5 * (s.readV x).toNat ∧ t.pc = s.pc + 2 ∧
      ChangesOnly s t (fun p => p = .pc ∨ p = .index)

/-- `Fx33`, R133, with the spec's decision D22 on the order of the digits: three digits of `V[x]`, hundreds first, at `I`, `I + 1`,
`I + 2`; no other byte changes. -/
def Obligations.BcdStoresThreeDigits : Prop :=
  ∀ (s : State) (x : Reg), s.MemCanonical → s.i.toNat + 2 ≤ 0xFFF →
    ∃ t h d o, exec (.ldB x) s = .next t ∧
      t.readByte (s.dataAddr 0) = h ∧ t.readByte (s.dataAddr 1) = d ∧ t.readByte (s.dataAddr 2) = o ∧
      (s.readV x).toNat = h.toNat * 100 + d.toNat * 10 + o.toNat ∧ d.toNat < 10 ∧ o.toNat < 10 ∧
      t.pc = s.pc + 2 ∧ ChangesOnly s t (fun p => p = .pc ∨ ∃ k, k < 3 ∧ p = .byteAt (s.dataAddr k))

/-- `Fx55`, R134: `V[0]` to `V[x]` at `I` to `I + x`; `I` is unchanged and no other byte changes. -/
def Obligations.StoreRegistersCopiesV0ToVx : Prop :=
  ∀ (s : State) (x : Reg), s.MemCanonical → s.i.toNat + x.toNat ≤ 0xFFF →
    ∃ t, exec (.storeRegs x) s = .next t ∧
      (∀ r : Reg, r.toNat ≤ x.toNat → t.readByte (s.dataAddr r.toNat) = s.readV r) ∧
      t.pc = s.pc + 2 ∧ ChangesOnly s t (fun p => p = .pc ∨ ∃ k, k ≤ x.toNat ∧ p = .byteAt (s.dataAddr k))

/-- `Fx65`, R135: `MEM[I .. I + x]` into `V[0]` to `V[x]`, VF included when `x = 0xF`; `I`, memory and the other registers are
unchanged. -/
def Obligations.LoadRegistersCopiesMemory : Prop :=
  ∀ (s : State) (x : Reg), s.i.toNat + x.toNat ≤ 0xFFF →
    ∃ t, exec (.loadRegs x) s = .next t ∧
      (∀ r : Reg, r.toNat ≤ x.toNat → t.readV r = s.readByte (s.dataAddr r.toNat)) ∧
      t.pc = s.pc + 2 ∧ ChangesOnly s t (fun p => p = .pc ∨ ∃ r : Reg, r.toNat ≤ x.toNat ∧ p = .reg r)

/-- R50, R163 (c) to (e), with the spec's decision D7: an instruction whose highest data address exceeds 0xFFF halts the core with
0x1000 and writes no byte, no register, no pixel. -/
def Obligations.DataOutOfRangeHaltsBeforeAnyWrite : Prop :=
  ∀ (s : State) (x y : Reg) (n : BitVec 4),
    (s.i.toNat + 2 > 0xFFF → exec (.ldB x) s = .next { s with status := .halt .addressOutOfRange 0x1000 }) ∧
    (s.i.toNat + x.toNat > 0xFFF → exec (.storeRegs x) s = .next { s with status := .halt .addressOutOfRange 0x1000 } ∧
      exec (.loadRegs x) s = .next { s with status := .halt .addressOutOfRange 0x1000 }) ∧
    (n.toNat ≥ 1 → s.i.toNat + n.toNat - 1 > 0xFFF →
      exec (.drw x y n) s = .next { s with status := .halt .addressOutOfRange 0x1000 })

/-- R54: a store is seen by the next fetch: two registers stored over the next instruction are the word the next fetch reads. -/
def Obligations.StoredRegistersAreFetchedNext : Prop :=
  ∀ (s t : State) (x : Reg), s.MemCanonical → 1 ≤ x.toNat → s.i.toNat + x.toNat ≤ 0xFFF → s.pc.toNat + 2 = s.i.toNat →
    exec (.storeRegs x) s = .next t →
    ∃ w, t.fetch = .ok w ∧ w.toNat = (s.readV 0).toNat * 256 + (s.readV 1).toNat

/-! ## Display (45_display.md) -/

/-- `00E0`, R141: every pixel becomes 0 and nothing else but `pc` changes. -/
def Obligations.ClearScreenZeroesEveryPixel : Prop :=
  ∀ s : State,
    decodeWord 0x00E0 = .ok .cls ∧
    ∃ t, exec .cls s = .next t ∧ (∀ X Y, fbGet t.fb X Y = false) ∧ t.pc = s.pc + 2 ∧
      ChangesOnly s t (fun p => p = .pc ∨ ∃ X Y, p = .pixel X Y)

/-- `Dxyn`, R142, R143, with the spec's decisions D5 (every pixel wraps) and D6 (coordinates first, VF starts at 0): the pixels of
the sprite are inverted, every other pixel is kept, and VF says whether one of them was set. -/
def Obligations.DrawInvertsTheSpriteAndReportsCollision : Prop :=
  ∀ (s : State) (x y : Reg) (n : BitVec 4), n = 0 ∨ s.i.toNat + n.toNat - 1 ≤ 0xFFF →
    ∃ t, exec (.drw x y n) s = .next t ∧
      (∀ X Y, SpriteSet s x y n X Y → fbGet t.fb X Y = !fbGet s.fb X Y) ∧
      ((∃ X Y, SpriteSet s x y n X Y ∧ fbGet s.fb X Y = true) → t.readV VF = 1) ∧
      ((∀ X Y, SpriteSet s x y n X Y → fbGet s.fb X Y = false) → t.readV VF = 0) ∧
      t.pc = s.pc + 2 ∧
      ChangesOnly s t (fun p => p = .pc ∨ p = .reg VF ∨ ∃ X Y, SpriteSet s x y n X Y ∧ p = .pixel X Y)

/-- R143: "drawing the same sprite at the same location twice in succession restores every touched pixel to its pre-draw value", and
the second draw over a region that was clear reports VF = 1 when the sprite is not empty. -/
def Obligations.DrawingTwiceRestoresTheScreen : Prop :=
  ∀ (s t : State) (x y : Reg) (n : BitVec 4), x ≠ VF → y ≠ VF → (n = 0 ∨ s.i.toNat + n.toNat - 1 ≤ 0xFFF) →
    exec (.drw x y n) s = .next t →
    ∃ u, exec (.drw x y n) t = .next u ∧ u.fb = s.fb ∧
      ((∀ X Y, SpriteSet s x y n X Y → fbGet s.fb X Y = false) → (∃ X Y, SpriteSet s x y n X Y) → u.readV VF = 1)

/-! ## Keypad, timers, random (46_input_timers_random.md, 60_exceptions.md) -/

/-- `Fx0A`, R152: with no key pressed the tick changes nothing; with one or more it reports a pressed key, which one being free (the
spec's decision D11, log 6). -/
def Obligations.WaitForKeyReportsAPressedKey : Prop :=
  ∀ (s : State) (x : Reg),
    ((∀ k, s.keyPressed k = false) → exec (.ldVxK x) s = .next s) ∧
    ((∃ k, s.keyPressed k = true) →
      ∃ t k, exec (.ldVxK x) s = .next t ∧ s.keyPressed k = true ∧ (t.readV x).toNat = k.val ∧ t.pc = s.pc + 2 ∧
        ChangesOnly s t (fun p => p = .pc ∨ p = .reg x))

/-- `Fx07`, `Fx15`, `Fx18`, R153, R154, R155: the three moves between a register and a timer. The instructions emit nothing. -/
def Obligations.TimerMoves : Prop :=
  ∀ (s : State) (x : Reg),
    (∃ t, exec (.ldVxDT x) s = .next t ∧ t.readV x = s.dt ∧ t.pc = s.pc + 2 ∧
      ChangesOnly s t (fun p => p = .pc ∨ p = .reg x)) ∧
    (∃ t, exec (.ldDTVx x) s = .next t ∧ t.dt = s.readV x ∧ t.pc = s.pc + 2 ∧
      ChangesOnly s t (fun p => p = .pc ∨ p = .delay)) ∧
    (∃ t, exec (.ldSTVx x) s = .next t ∧ t.st = s.readV x ∧ t.pc = s.pc + 2 ∧
      ChangesOnly s t (fun p => p = .pc ∨ p = .sound))

/-- `Cxkk`, R156: the byte drawn, and-ed with `kk`. The byte is the oldest the host has supplied; with none supplied it is a free
value (the spec's decision D18, log 5) of which only the mask is known, and the queue stays empty. The draw is
consumed. -/
def Obligations.RandomByteIsDrawnUnderTheMask : Prop :=
  ∀ (s : State) (x : Reg) (kk : Byte),
    ∃ t b, exec (.rnd x kk) s = .next t ∧ t.readV x = b &&& kk ∧
      (∀ b' rest, s.rand = b' :: rest → b = b' ∧ t.rand = rest) ∧ (s.rand = [] → t.rand = []) ∧
      (∀ k, kk.getLsbD k = false → (t.readV x).getLsbD k = false) ∧ t.draws = s.draws + 1 ∧ t.pc = s.pc + 2 ∧
      ChangesOnly s t (fun p => p = .pc ∨ p = .reg x ∨ p = .randomInput ∨ p = .draws)

/-- R174, R175: `k` timer ticks take `DT` and `ST` to `max(t - k, 0)`, emit `SOUND_EXPIRED` once when `ST` was from 1 to `k` and never
otherwise, and change nothing else, whatever STATUS is, which is the spec's decision D10. That the ticks are the next events of a
schedule, and that the events emitted are counted, is the model's (log 1, log 7). -/
def Obligations.TimersCountDownToZeroAndExpireOnce : Prop :=
  ∀ (k : Nat) (s : State), (∀ j, j < k → s.eventAt j = some .timerTick) →
    ∃ t, runSteps k s = .next t ∧
      t.dt.toNat = s.dt.toNat - k ∧ t.st.toNat = s.st.toNat - k ∧
      (1 ≤ s.st.toNat ∧ s.st.toNat ≤ k → t.soundExpired = s.soundExpired + 1) ∧
      (s.st.toNat = 0 ∨ k < s.st.toNat → t.soundExpired = s.soundExpired) ∧
      ChangesOnly s t (fun p => p = .delay ∨ p = .sound ∨ p = .soundExpired ∨ p = .schedule)

/-- R28 and R29: a key change and the supply of a random byte each change their input alone. That they are events of a schedule, which
is left without them, and that supplied bytes queue is the model's (log 1, log 5). -/
def Obligations.HostInputsChangeOnlyTheirInput : Prop :=
  ∀ (s : State) (k : Fin 16) (pressed : Bool) (b : Byte),
    (s.nextEvent = some (.setKey k pressed) →
      ∃ t, step s = .next t ∧ t.keyPressed k = pressed ∧ t.agenda = s.takeEvent.agenda ∧ t.later = s.takeEvent.later ∧
        ChangesOnly s t (fun p => p = .key k ∨ p = .schedule)) ∧
    (s.nextEvent = some (.supplyByte b) →
      ∃ t, step s = .next t ∧ t.rand = s.rand ++ [b] ∧ t.agenda = s.takeEvent.agenda ∧ t.later = s.takeEvent.later ∧
        ChangesOnly s t (fun p => p = .randomInput ∨ p = .schedule))

/-! ## Load and reset (70_reset_and_hazards.md) -/

/-- R34, R190, R191: what an accepted `Load` leaves in every piece of state. The zero fill, the clear framebuffer, `RUN` and the zero
stack entries are the spec's decisions D13, D14, D9, D16 (logs 18, 19, 8, 20). That the Load is the next event of a
schedule, of which the rest is left, is the model's (log 1), and so is the form of what it keeps: the queue of random bytes (log 5), the count of events (log 7). -/
def Obligations.LoadRebuildsTheWholeState : Prop :=
  ∀ (s : State) (image : List Byte), s.nextEvent = some (.load image) → image.length ≤ 3584 →
    ∃ t, step s = .next t ∧
      (∀ r, t.readV r = 0) ∧ t.i = 0 ∧ t.pc = 0x200 ∧ t.sp.val = 0 ∧ (∀ k : Fin 16, t.stack[k.val] = 0) ∧ t.dt = 0 ∧ t.st = 0 ∧
      (∀ a : Fin 80, t.readByte a.val = s.font[a.val]) ∧
      (∀ a, 0x050 ≤ a → a ≤ 0x1FF → t.readByte a = 0) ∧
      (∀ j (h : j < image.length), t.readByte (0x200 + j) = image[j]) ∧
      (∀ a, 0x200 + image.length ≤ a → a ≤ 0xFFF → t.readByte a = 0) ∧
      (∀ X Y, fbGet t.fb X Y = false) ∧ t.status = .run ∧
      t.keys = s.keys ∧ t.rand = s.rand ∧ t.draws = s.draws ∧ t.font = s.font ∧ t.soundExpired = s.soundExpired ∧
      t.agenda = s.takeEvent.agenda ∧ t.later = s.takeEvent.later

/-- R162, R190, with the spec's decision D15 (log 9): an image over 3584 bytes leaves the reset state, no byte of the image in memory,
and the core halted with the length, saturated, which is D8. The zeros in memory are D13 (log 18), the clear framebuffer D14 (log
19), the zero stack entries D16 (log 20). That the Load is the next event of a schedule, of which the rest is left, is the model's
(log 1), and so is the form of what it keeps: the queue of random bytes (log 5), the count of events (log 7). -/
def Obligations.TooLongImageIsRefused : Prop :=
  ∀ (s : State) (image : List Byte), s.nextEvent = some (.load image) → 3584 < image.length →
    ∃ t info, step s = .next t ∧ t.status = .halt .imageTooLarge info ∧ info.toNat = min image.length 0xFFFF ∧
      (∀ r, t.readV r = 0) ∧ t.i = 0 ∧ t.pc = 0x200 ∧ t.sp.val = 0 ∧ (∀ k : Fin 16, t.stack[k.val] = 0) ∧ t.dt = 0 ∧ t.st = 0 ∧
      (∀ a : Fin 80, t.readByte a.val = s.font[a.val]) ∧ (∀ a, 0x050 ≤ a → a ≤ 0xFFF → t.readByte a = 0) ∧
      (∀ X Y, fbGet t.fb X Y = false) ∧
      t.keys = s.keys ∧ t.rand = s.rand ∧ t.draws = s.draws ∧ t.font = s.font ∧ t.soundExpired = s.soundExpired ∧
      t.agenda = s.takeEvent.agenda ∧ t.later = s.takeEvent.later

/-- R194: no residue. Whatever happened before, two states with the same inputs are the same state after the same `Load`. The inputs,
the count of events and the schedule are compared in the model's form (logs 1, 3, 5, 7). -/
def Obligations.LoadLeavesNoResidue : Prop :=
  ∀ (image : List Byte) (s s' : State),
    s.font = s'.font → s.keys = s'.keys → s.rand = s'.rand → s.soundExpired = s'.soundExpired → s.draws = s'.draws →
    s.agenda = s'.agenda → s.later = s'.later → load image s = load image s'

/-! ## Whole-machine rules -/

/-- R28: `KEY` "is read by `Ex9E`, `ExA1` and `Fx0A` only": no other instruction's effect depends on the keys. -/
def Obligations.OnlyKeypadInstructionsReadTheKeys : Prop :=
  ∀ (i : Instr) (s t : State) (ks : Vector Bool 16), (∀ x, i ≠ .skp x ∧ i ≠ .sknp x ∧ i ≠ .ldVxK x) →
    exec i s = .next t → exec i { s with keys := ks } = .next { t with keys := ks }

/-- R25: "no instruction reads `ST`": two states that differ in `ST` alone differ in `ST` alone afterwards. -/
def Obligations.NoInstructionReadsTheSoundTimer : Prop :=
  ∀ (i : Instr) (s t : State) (b : Byte), exec i s = .next t →
    ∃ u, exec i { s with st := b } = .next u ∧ { u with st := 0 } = { t with st := 0 }

/-- R24, with the spec's decision D16: entries at index `SP` and above are not architectural. Two states that differ only in them
answer the same, but for entries that are again not architectural. -/
def Obligations.StaleStackEntriesAreNeverRead : Prop :=
  ∀ (i : Instr) (s t : State) (other : Vector Word 16),
    (∀ k : Fin 16, k.val < s.sp.val → other[k.val] = s.stack[k.val]) → exec i s = .next t →
    ∃ u, exec i { s with stack := other } = .next u ∧ { u with stack := t.stack } = t ∧
      ∀ k : Fin 16, k.val < t.sp.val → u.stack[k.val] = t.stack[k.val]

/-- R205, the spec's decision D28: from a quiescent state every CPU tick leaves the state unchanged, and a timer tick leaves it
quiescent. -/
def Obligations.QuiescentStatesStay : Prop :=
  ∀ s : State, s.Quiescent → cpuTick s = .next s ∧ (timerTick s).Quiescent

/-- R7, with the spec's decision D17: the machine has no order of its own. Two states that differ only in their schedules, and whose
schedules agree on their first `k` events, are the same after `k` steps but for the schedules left. The schedule in the state is the
model's form of the parameter (log 1). -/
def Obligations.RunsFollowTheirScheduleOnly : Prop :=
  ∀ (k : Nat) (s t : State) (agenda : List Event) (later : Later),
    (∀ j, j < k → { s with agenda := agenda, later := later }.eventAt j = s.eventAt j) → runSteps k s = .next t →
    ∃ u, runSteps k { s with agenda := agenda, later := later } = .next u ∧ { u with agenda := t.agenda, later := t.later } = t

/-- R7, R9 (d), with the spec's decision D17: a run performs the events of its schedule in their order, one whole step each. What
schedules a state can hold: the events of the agenda first, in their order, whatever comes later; then nothing, or any events over and
over, or the one sequence `Config.schedule` from some place on, of which nothing is known. The form is the model's (log 1). -/
def Obligations.RunsPerformAnySchedule : Prop :=
  ∀ s : State,
    (∀ k, ∃ t u, runSteps k s = .next t ∧ perform (s.upcoming k) s = .next u ∧
      { t with agenda := u.agenda, later := u.later } = u) ∧
    (∀ (first : List Event) (later : Later) (j : Nat), j < first.length →
      { s with agenda := first, later := later }.eventAt j = first[j]?) ∧
    (∀ (first : List Event) (j : Nat), { s with agenda := first, later := .repeats [] }.eventAt j = first[j]?) ∧
    (∀ (first again : List Event) (j : Nat),
      { s with agenda := first, later := .repeats again }.eventAt (first.length + j) = again[j % again.length]?) ∧
    (∀ (first : List Event) (n j : Nat),
      { s with agenda := first, later := .free n }.eventAt (first.length + j) = Config.schedule (n + j))
end

