-- ==== Sys2Proof/Laws/Decode.lean ====
section
/-! SUPPORT. The fields of a word as numbers (30_encoding.md R61), and the fields of a word laid out in one of the formats of R62 or
made of two bytes. -/

namespace Sys2Proof

variable (major : BitVec 4) (x y : Reg) (n : BitVec 4) (kk hi lo : Byte) (nnn : BitVec 12) (op : Word)

/-! ## As numbers -/

theorem opMajor_toNat : (opMajor op).toNat = op.toNat / 4096 := by
  have := op.isLt; simp [opMajor, BitVec.extractLsb'_toNat, Nat.shiftRight_eq_div_pow]; omega
theorem opX_toNat : (opX op).toNat = op.toNat / 256 % 16 := by
  simp [opX, BitVec.extractLsb'_toNat, Nat.shiftRight_eq_div_pow]
theorem opY_toNat : (opY op).toNat = op.toNat / 16 % 16 := by
  simp [opY, BitVec.extractLsb'_toNat, Nat.shiftRight_eq_div_pow]
theorem opN_toNat : (opN op).toNat = op.toNat % 16 := by simp [opN, BitVec.extractLsb'_toNat]
theorem opKK_toNat : (opKK op).toNat = op.toNat % 256 := by simp [opKK, BitVec.extractLsb'_toNat]
theorem opNNN_toNat : (opNNN op).toNat = op.toNat % 4096 := by simp [opNNN, BitVec.extractLsb'_toNat]
theorem highByte_toNat : (highByte op).toNat = op.toNat / 256 := by
  have := op.isLt; simp [highByte, BitVec.extractLsb'_toNat, Nat.shiftRight_eq_div_pow]; omega
theorem lowByte_toNat : (lowByte op).toNat = op.toNat % 256 := by simp [lowByte, BitVec.extractLsb'_toNat]

/-- The number of a concatenation. -/
theorem toNat_append_eq {v w : Nat} (a : BitVec v) (b : BitVec w) : (a ++ b).toNat = a.toNat * 2 ^ w + b.toNat := by
  rw [BitVec.toNat_append, Nat.shiftLeft_eq, Nat.mul_comm, ← Nat.two_pow_add_eq_or_of_lt b.isLt]

theorem formatA_toNat : (formatA major nnn).toNat = major.toNat * 4096 + nnn.toNat := toNat_append_eq major nnn
theorem formatXK_toNat : (formatXK major x kk).toNat = major.toNat * 4096 + x.toNat * 256 + kk.toNat := by
  have := (toNat_append_eq (major ++ x) kk).trans (by rw [toNat_append_eq])
  exact this.trans (by ring)
theorem formatXYN_toNat : (formatXYN major x y n).toNat = major.toNat * 4096 + x.toNat * 256 + y.toNat * 16 + n.toNat := by
  have := (toNat_append_eq (major ++ x ++ y) n).trans (by rw [toNat_append_eq, toNat_append_eq])
  exact this.trans (by ring)

/-- `(hi << 8) | lo` as a number (R44). -/
theorem wordOfBytes_toNat : (wordOfBytes hi lo).toNat = hi.toNat * 256 + lo.toNat := toNat_append_eq hi lo

/-! ## Fields of a format -/

@[simp] theorem opMajor_formatA : opMajor (formatA major nnn) = major := by
  apply BitVec.eq_of_toNat_eq; rw [opMajor_toNat, formatA_toNat]; omega
@[simp] theorem opNNN_formatA : opNNN (formatA major nnn) = nnn := by
  apply BitVec.eq_of_toNat_eq; rw [opNNN_toNat, formatA_toNat]; omega

@[simp] theorem opMajor_formatXK : opMajor (formatXK major x kk) = major := by
  apply BitVec.eq_of_toNat_eq; rw [opMajor_toNat, formatXK_toNat]; omega
@[simp] theorem opX_formatXK : opX (formatXK major x kk) = x := by
  apply BitVec.eq_of_toNat_eq; rw [opX_toNat, formatXK_toNat]; omega
@[simp] theorem opKK_formatXK : opKK (formatXK major x kk) = kk := by
  apply BitVec.eq_of_toNat_eq; rw [opKK_toNat, formatXK_toNat]; omega

@[simp] theorem opMajor_formatXYN : opMajor (formatXYN major x y n) = major := by
  apply BitVec.eq_of_toNat_eq; rw [opMajor_toNat, formatXYN_toNat]; omega
@[simp] theorem opX_formatXYN : opX (formatXYN major x y n) = x := by
  apply BitVec.eq_of_toNat_eq; rw [opX_toNat, formatXYN_toNat]; omega
@[simp] theorem opY_formatXYN : opY (formatXYN major x y n) = y := by
  apply BitVec.eq_of_toNat_eq; rw [opY_toNat, formatXYN_toNat]; omega
@[simp] theorem opN_formatXYN : opN (formatXYN major x y n) = n := by
  apply BitVec.eq_of_toNat_eq; rw [opN_toNat, formatXYN_toNat]; omega

/-! ## A word and its two bytes (R45) -/

@[simp] theorem wordOfBytes_highByte_lowByte : wordOfBytes (highByte op) (lowByte op) = op := by
  apply BitVec.eq_of_toNat_eq; rw [wordOfBytes_toNat, highByte_toNat, lowByte_toNat]; omega
@[simp] theorem highByte_wordOfBytes : highByte (wordOfBytes hi lo) = hi := by
  apply BitVec.eq_of_toNat_eq; rw [highByte_toNat, wordOfBytes_toNat]; omega
@[simp] theorem lowByte_wordOfBytes : lowByte (wordOfBytes hi lo) = lo := by
  apply BitVec.eq_of_toNat_eq; rw [lowByte_toNat, wordOfBytes_toNat]; omega

/-! ## Every word is the format of its fields: A, XK and XYN are three readings of the same 16 bits (R61) -/

theorem formatA_fields : formatA (opMajor op) (opNNN op) = op := by
  apply BitVec.eq_of_toNat_eq; rw [formatA_toNat, opMajor_toNat, opNNN_toNat]; omega
theorem formatXK_fields : formatXK (opMajor op) (opX op) (opKK op) = op := by
  apply BitVec.eq_of_toNat_eq; rw [formatXK_toNat, opMajor_toNat, opX_toNat, opKK_toNat]; omega
theorem formatXYN_fields : formatXYN (opMajor op) (opX op) (opY op) (opN op) = op := by
  apply BitVec.eq_of_toNat_eq; rw [formatXYN_toNat, opMajor_toNat, opX_toNat, opY_toNat, opN_toNat]; omega

end Sys2Proof
end

