-- ==== Sys2Proof/Laws/State.lean ====
section
/-! SUPPORT. One lemma per field per update of a state, so that no later proof unfolds a record update. -/

namespace Sys2Proof.Machine

variable (s : State)

/-! ## `writeV` -/

@[simp] theorem State.writeV_i (x : Reg) (b : Byte) : (s.writeV x b).i = s.i := rfl
@[simp] theorem State.writeV_pc (x : Reg) (b : Byte) : (s.writeV x b).pc = s.pc := rfl
@[simp] theorem State.writeV_stack (x : Reg) (b : Byte) : (s.writeV x b).stack = s.stack := rfl
@[simp] theorem State.writeV_sp (x : Reg) (b : Byte) : (s.writeV x b).sp = s.sp := rfl
@[simp] theorem State.writeV_dt (x : Reg) (b : Byte) : (s.writeV x b).dt = s.dt := rfl
@[simp] theorem State.writeV_st (x : Reg) (b : Byte) : (s.writeV x b).st = s.st := rfl
@[simp] theorem State.writeV_mem (x : Reg) (b : Byte) : (s.writeV x b).mem = s.mem := rfl
@[simp] theorem State.writeV_fb (x : Reg) (b : Byte) : (s.writeV x b).fb = s.fb := rfl
@[simp] theorem State.writeV_status (x : Reg) (b : Byte) : (s.writeV x b).status = s.status := rfl
@[simp] theorem State.writeV_keys (x : Reg) (b : Byte) : (s.writeV x b).keys = s.keys := rfl
@[simp] theorem State.writeV_rand (x : Reg) (b : Byte) : (s.writeV x b).rand = s.rand := rfl
@[simp] theorem State.writeV_font (x : Reg) (b : Byte) : (s.writeV x b).font = s.font := rfl
@[simp] theorem State.writeV_soundExpired (x : Reg) (b : Byte) : (s.writeV x b).soundExpired = s.soundExpired := rfl
@[simp] theorem State.writeV_draws (x : Reg) (b : Byte) : (s.writeV x b).draws = s.draws := rfl
@[simp] theorem State.writeV_agenda (x : Reg) (b : Byte) : (s.writeV x b).agenda = s.agenda := rfl
@[simp] theorem State.writeV_later (x : Reg) (b : Byte) : (s.writeV x b).later = s.later := rfl

/-! ## `writeI` -/

@[simp] theorem State.writeI_v (a : Word) : (s.writeI a).v = s.v := rfl
@[simp] theorem State.writeI_i (a : Word) : (s.writeI a).i = a &&& 0x0FFF#16 := rfl
@[simp] theorem State.writeI_pc (a : Word) : (s.writeI a).pc = s.pc := rfl
@[simp] theorem State.writeI_stack (a : Word) : (s.writeI a).stack = s.stack := rfl
@[simp] theorem State.writeI_sp (a : Word) : (s.writeI a).sp = s.sp := rfl
@[simp] theorem State.writeI_dt (a : Word) : (s.writeI a).dt = s.dt := rfl
@[simp] theorem State.writeI_st (a : Word) : (s.writeI a).st = s.st := rfl
@[simp] theorem State.writeI_mem (a : Word) : (s.writeI a).mem = s.mem := rfl
@[simp] theorem State.writeI_fb (a : Word) : (s.writeI a).fb = s.fb := rfl
@[simp] theorem State.writeI_status (a : Word) : (s.writeI a).status = s.status := rfl
@[simp] theorem State.writeI_keys (a : Word) : (s.writeI a).keys = s.keys := rfl
@[simp] theorem State.writeI_rand (a : Word) : (s.writeI a).rand = s.rand := rfl
@[simp] theorem State.writeI_font (a : Word) : (s.writeI a).font = s.font := rfl
@[simp] theorem State.writeI_soundExpired (a : Word) : (s.writeI a).soundExpired = s.soundExpired := rfl
@[simp] theorem State.writeI_draws (a : Word) : (s.writeI a).draws = s.draws := rfl
@[simp] theorem State.writeI_agenda (a : Word) : (s.writeI a).agenda = s.agenda := rfl
@[simp] theorem State.writeI_later (a : Word) : (s.writeI a).later = s.later := rfl

/-! ## `writePc` -/

@[simp] theorem State.writePc_v (t : Word) : (s.writePc t).v = s.v := rfl
@[simp] theorem State.writePc_i (t : Word) : (s.writePc t).i = s.i := rfl
@[simp] theorem State.writePc_pc (t : Word) : (s.writePc t).pc = t := rfl
@[simp] theorem State.writePc_stack (t : Word) : (s.writePc t).stack = s.stack := rfl
@[simp] theorem State.writePc_sp (t : Word) : (s.writePc t).sp = s.sp := rfl
@[simp] theorem State.writePc_dt (t : Word) : (s.writePc t).dt = s.dt := rfl
@[simp] theorem State.writePc_st (t : Word) : (s.writePc t).st = s.st := rfl
@[simp] theorem State.writePc_mem (t : Word) : (s.writePc t).mem = s.mem := rfl
@[simp] theorem State.writePc_fb (t : Word) : (s.writePc t).fb = s.fb := rfl
@[simp] theorem State.writePc_status (t : Word) : (s.writePc t).status = s.status := rfl
@[simp] theorem State.writePc_keys (t : Word) : (s.writePc t).keys = s.keys := rfl
@[simp] theorem State.writePc_rand (t : Word) : (s.writePc t).rand = s.rand := rfl
@[simp] theorem State.writePc_font (t : Word) : (s.writePc t).font = s.font := rfl
@[simp] theorem State.writePc_soundExpired (t : Word) : (s.writePc t).soundExpired = s.soundExpired := rfl
@[simp] theorem State.writePc_draws (t : Word) : (s.writePc t).draws = s.draws := rfl
@[simp] theorem State.writePc_agenda (t : Word) : (s.writePc t).agenda = s.agenda := rfl
@[simp] theorem State.writePc_later (t : Word) : (s.writePc t).later = s.later := rfl

/-! ## `advance` -/

@[simp] theorem State.advance_v : (s.advance).v = s.v := rfl
@[simp] theorem State.advance_i : (s.advance).i = s.i := rfl
@[simp] theorem State.advance_pc : (s.advance).pc = s.pc + 2 := rfl
@[simp] theorem State.advance_stack : (s.advance).stack = s.stack := rfl
@[simp] theorem State.advance_sp : (s.advance).sp = s.sp := rfl
@[simp] theorem State.advance_dt : (s.advance).dt = s.dt := rfl
@[simp] theorem State.advance_st : (s.advance).st = s.st := rfl
@[simp] theorem State.advance_mem : (s.advance).mem = s.mem := rfl
@[simp] theorem State.advance_fb : (s.advance).fb = s.fb := rfl
@[simp] theorem State.advance_status : (s.advance).status = s.status := rfl
@[simp] theorem State.advance_keys : (s.advance).keys = s.keys := rfl
@[simp] theorem State.advance_rand : (s.advance).rand = s.rand := rfl
@[simp] theorem State.advance_font : (s.advance).font = s.font := rfl
@[simp] theorem State.advance_soundExpired : (s.advance).soundExpired = s.soundExpired := rfl
@[simp] theorem State.advance_draws : (s.advance).draws = s.draws := rfl
@[simp] theorem State.advance_agenda : (s.advance).agenda = s.agenda := rfl
@[simp] theorem State.advance_later : (s.advance).later = s.later := rfl

/-! ## `skipIf` -/

@[simp] theorem State.skipIf_v (c : Bool) : (s.skipIf c).v = s.v := rfl
@[simp] theorem State.skipIf_i (c : Bool) : (s.skipIf c).i = s.i := rfl
@[simp] theorem State.skipIf_pc (c : Bool) : (s.skipIf c).pc = if c then s.pc + 4 else s.pc + 2 := rfl
@[simp] theorem State.skipIf_stack (c : Bool) : (s.skipIf c).stack = s.stack := rfl
@[simp] theorem State.skipIf_sp (c : Bool) : (s.skipIf c).sp = s.sp := rfl
@[simp] theorem State.skipIf_dt (c : Bool) : (s.skipIf c).dt = s.dt := rfl
@[simp] theorem State.skipIf_st (c : Bool) : (s.skipIf c).st = s.st := rfl
@[simp] theorem State.skipIf_mem (c : Bool) : (s.skipIf c).mem = s.mem := rfl
@[simp] theorem State.skipIf_fb (c : Bool) : (s.skipIf c).fb = s.fb := rfl
@[simp] theorem State.skipIf_status (c : Bool) : (s.skipIf c).status = s.status := rfl
@[simp] theorem State.skipIf_keys (c : Bool) : (s.skipIf c).keys = s.keys := rfl
@[simp] theorem State.skipIf_rand (c : Bool) : (s.skipIf c).rand = s.rand := rfl
@[simp] theorem State.skipIf_font (c : Bool) : (s.skipIf c).font = s.font := rfl
@[simp] theorem State.skipIf_soundExpired (c : Bool) : (s.skipIf c).soundExpired = s.soundExpired := rfl
@[simp] theorem State.skipIf_draws (c : Bool) : (s.skipIf c).draws = s.draws := rfl
@[simp] theorem State.skipIf_agenda (c : Bool) : (s.skipIf c).agenda = s.agenda := rfl
@[simp] theorem State.skipIf_later (c : Bool) : (s.skipIf c).later = s.later := rfl

/-! ## `writeDT` -/

@[simp] theorem State.writeDT_v (b : Byte) : (s.writeDT b).v = s.v := rfl
@[simp] theorem State.writeDT_i (b : Byte) : (s.writeDT b).i = s.i := rfl
@[simp] theorem State.writeDT_pc (b : Byte) : (s.writeDT b).pc = s.pc := rfl
@[simp] theorem State.writeDT_stack (b : Byte) : (s.writeDT b).stack = s.stack := rfl
@[simp] theorem State.writeDT_sp (b : Byte) : (s.writeDT b).sp = s.sp := rfl
@[simp] theorem State.writeDT_dt (b : Byte) : (s.writeDT b).dt = b := rfl
@[simp] theorem State.writeDT_st (b : Byte) : (s.writeDT b).st = s.st := rfl
@[simp] theorem State.writeDT_mem (b : Byte) : (s.writeDT b).mem = s.mem := rfl
@[simp] theorem State.writeDT_fb (b : Byte) : (s.writeDT b).fb = s.fb := rfl
@[simp] theorem State.writeDT_status (b : Byte) : (s.writeDT b).status = s.status := rfl
@[simp] theorem State.writeDT_keys (b : Byte) : (s.writeDT b).keys = s.keys := rfl
@[simp] theorem State.writeDT_rand (b : Byte) : (s.writeDT b).rand = s.rand := rfl
@[simp] theorem State.writeDT_font (b : Byte) : (s.writeDT b).font = s.font := rfl
@[simp] theorem State.writeDT_soundExpired (b : Byte) : (s.writeDT b).soundExpired = s.soundExpired := rfl
@[simp] theorem State.writeDT_draws (b : Byte) : (s.writeDT b).draws = s.draws := rfl
@[simp] theorem State.writeDT_agenda (b : Byte) : (s.writeDT b).agenda = s.agenda := rfl
@[simp] theorem State.writeDT_later (b : Byte) : (s.writeDT b).later = s.later := rfl

/-! ## `writeST` -/

@[simp] theorem State.writeST_v (b : Byte) : (s.writeST b).v = s.v := rfl
@[simp] theorem State.writeST_i (b : Byte) : (s.writeST b).i = s.i := rfl
@[simp] theorem State.writeST_pc (b : Byte) : (s.writeST b).pc = s.pc := rfl
@[simp] theorem State.writeST_stack (b : Byte) : (s.writeST b).stack = s.stack := rfl
@[simp] theorem State.writeST_sp (b : Byte) : (s.writeST b).sp = s.sp := rfl
@[simp] theorem State.writeST_dt (b : Byte) : (s.writeST b).dt = s.dt := rfl
@[simp] theorem State.writeST_st (b : Byte) : (s.writeST b).st = b := rfl
@[simp] theorem State.writeST_mem (b : Byte) : (s.writeST b).mem = s.mem := rfl
@[simp] theorem State.writeST_fb (b : Byte) : (s.writeST b).fb = s.fb := rfl
@[simp] theorem State.writeST_status (b : Byte) : (s.writeST b).status = s.status := rfl
@[simp] theorem State.writeST_keys (b : Byte) : (s.writeST b).keys = s.keys := rfl
@[simp] theorem State.writeST_rand (b : Byte) : (s.writeST b).rand = s.rand := rfl
@[simp] theorem State.writeST_font (b : Byte) : (s.writeST b).font = s.font := rfl
@[simp] theorem State.writeST_soundExpired (b : Byte) : (s.writeST b).soundExpired = s.soundExpired := rfl
@[simp] theorem State.writeST_draws (b : Byte) : (s.writeST b).draws = s.draws := rfl
@[simp] theorem State.writeST_agenda (b : Byte) : (s.writeST b).agenda = s.agenda := rfl
@[simp] theorem State.writeST_later (b : Byte) : (s.writeST b).later = s.later := rfl

/-! ## `writeByte` -/

@[simp] theorem State.writeByte_v (a : Nat) (b : Byte) : (s.writeByte a b).v = s.v := rfl
@[simp] theorem State.writeByte_i (a : Nat) (b : Byte) : (s.writeByte a b).i = s.i := rfl
@[simp] theorem State.writeByte_pc (a : Nat) (b : Byte) : (s.writeByte a b).pc = s.pc := rfl
@[simp] theorem State.writeByte_stack (a : Nat) (b : Byte) : (s.writeByte a b).stack = s.stack := rfl
@[simp] theorem State.writeByte_sp (a : Nat) (b : Byte) : (s.writeByte a b).sp = s.sp := rfl
@[simp] theorem State.writeByte_dt (a : Nat) (b : Byte) : (s.writeByte a b).dt = s.dt := rfl
@[simp] theorem State.writeByte_st (a : Nat) (b : Byte) : (s.writeByte a b).st = s.st := rfl
@[simp] theorem State.writeByte_mem (a : Nat) (b : Byte) : (s.writeByte a b).mem = Memory.write s.font s.mem a b := rfl
@[simp] theorem State.writeByte_fb (a : Nat) (b : Byte) : (s.writeByte a b).fb = s.fb := rfl
@[simp] theorem State.writeByte_status (a : Nat) (b : Byte) : (s.writeByte a b).status = s.status := rfl
@[simp] theorem State.writeByte_keys (a : Nat) (b : Byte) : (s.writeByte a b).keys = s.keys := rfl
@[simp] theorem State.writeByte_rand (a : Nat) (b : Byte) : (s.writeByte a b).rand = s.rand := rfl
@[simp] theorem State.writeByte_font (a : Nat) (b : Byte) : (s.writeByte a b).font = s.font := rfl
@[simp] theorem State.writeByte_soundExpired (a : Nat) (b : Byte) : (s.writeByte a b).soundExpired = s.soundExpired := rfl
@[simp] theorem State.writeByte_draws (a : Nat) (b : Byte) : (s.writeByte a b).draws = s.draws := rfl
@[simp] theorem State.writeByte_agenda (a : Nat) (b : Byte) : (s.writeByte a b).agenda = s.agenda := rfl
@[simp] theorem State.writeByte_later (a : Nat) (b : Byte) : (s.writeByte a b).later = s.later := rfl

/-! ## `fbClear` -/

@[simp] theorem State.fbClear_v : (s.fbClear).v = s.v := rfl
@[simp] theorem State.fbClear_i : (s.fbClear).i = s.i := rfl
@[simp] theorem State.fbClear_pc : (s.fbClear).pc = s.pc := rfl
@[simp] theorem State.fbClear_stack : (s.fbClear).stack = s.stack := rfl
@[simp] theorem State.fbClear_sp : (s.fbClear).sp = s.sp := rfl
@[simp] theorem State.fbClear_dt : (s.fbClear).dt = s.dt := rfl
@[simp] theorem State.fbClear_st : (s.fbClear).st = s.st := rfl
@[simp] theorem State.fbClear_mem : (s.fbClear).mem = s.mem := rfl
@[simp] theorem State.fbClear_fb : (s.fbClear).fb = fbBlank := rfl
@[simp] theorem State.fbClear_status : (s.fbClear).status = s.status := rfl
@[simp] theorem State.fbClear_keys : (s.fbClear).keys = s.keys := rfl
@[simp] theorem State.fbClear_rand : (s.fbClear).rand = s.rand := rfl
@[simp] theorem State.fbClear_font : (s.fbClear).font = s.font := rfl
@[simp] theorem State.fbClear_soundExpired : (s.fbClear).soundExpired = s.soundExpired := rfl
@[simp] theorem State.fbClear_draws : (s.fbClear).draws = s.draws := rfl
@[simp] theorem State.fbClear_agenda : (s.fbClear).agenda = s.agenda := rfl
@[simp] theorem State.fbClear_later : (s.fbClear).later = s.later := rfl

/-! ## `consumeRandom` -/

@[simp] theorem State.consumeRandom_v : (s.consumeRandom).v = s.v := rfl
@[simp] theorem State.consumeRandom_i : (s.consumeRandom).i = s.i := rfl
@[simp] theorem State.consumeRandom_pc : (s.consumeRandom).pc = s.pc := rfl
@[simp] theorem State.consumeRandom_stack : (s.consumeRandom).stack = s.stack := rfl
@[simp] theorem State.consumeRandom_sp : (s.consumeRandom).sp = s.sp := rfl
@[simp] theorem State.consumeRandom_dt : (s.consumeRandom).dt = s.dt := rfl
@[simp] theorem State.consumeRandom_st : (s.consumeRandom).st = s.st := rfl
@[simp] theorem State.consumeRandom_mem : (s.consumeRandom).mem = s.mem := rfl
@[simp] theorem State.consumeRandom_fb : (s.consumeRandom).fb = s.fb := rfl
@[simp] theorem State.consumeRandom_status : (s.consumeRandom).status = s.status := rfl
@[simp] theorem State.consumeRandom_keys : (s.consumeRandom).keys = s.keys := rfl
@[simp] theorem State.consumeRandom_rand : (s.consumeRandom).rand = s.rand.tail := rfl
@[simp] theorem State.consumeRandom_font : (s.consumeRandom).font = s.font := rfl
@[simp] theorem State.consumeRandom_soundExpired : (s.consumeRandom).soundExpired = s.soundExpired := rfl
@[simp] theorem State.consumeRandom_draws : (s.consumeRandom).draws = s.draws + 1 := rfl
@[simp] theorem State.consumeRandom_agenda : (s.consumeRandom).agenda = s.agenda := rfl
@[simp] theorem State.consumeRandom_later : (s.consumeRandom).later = s.later := rfl

/-! ## Reading a register, a byte or a key through an update that does not write it -/

@[simp] theorem State.writeV_readByte (x : Reg) (b : Byte) (k : Nat) : (s.writeV x b).readByte k = s.readByte k := rfl
@[simp] theorem State.writeV_dataAddr (x : Reg) (b : Byte) (k : Nat) : (s.writeV x b).dataAddr k = s.dataAddr k := rfl
@[simp] theorem State.writeV_keyPressed (x : Reg) (b : Byte) (k : Fin 16) : (s.writeV x b).keyPressed k = s.keyPressed k := rfl
@[simp] theorem State.writeI_readV (a : Word) (r : Reg) : (s.writeI a).readV r = s.readV r := rfl
@[simp] theorem State.writeI_readByte (a : Word) (k : Nat) : (s.writeI a).readByte k = s.readByte k := rfl
@[simp] theorem State.writeI_keyPressed (a : Word) (k : Fin 16) : (s.writeI a).keyPressed k = s.keyPressed k := rfl
@[simp] theorem State.writePc_readV (t : Word) (r : Reg) : (s.writePc t).readV r = s.readV r := rfl
@[simp] theorem State.writePc_readByte (t : Word) (k : Nat) : (s.writePc t).readByte k = s.readByte k := rfl
@[simp] theorem State.writePc_dataAddr (t : Word) (k : Nat) : (s.writePc t).dataAddr k = s.dataAddr k := rfl
@[simp] theorem State.writePc_keyPressed (t : Word) (k : Fin 16) : (s.writePc t).keyPressed k = s.keyPressed k := rfl
@[simp] theorem State.advance_readV (r : Reg) : (s.advance).readV r = s.readV r := rfl
@[simp] theorem State.advance_readByte (k : Nat) : (s.advance).readByte k = s.readByte k := rfl
@[simp] theorem State.advance_dataAddr (k : Nat) : (s.advance).dataAddr k = s.dataAddr k := rfl
@[simp] theorem State.advance_keyPressed (k : Fin 16) : (s.advance).keyPressed k = s.keyPressed k := rfl
@[simp] theorem State.skipIf_readV (c : Bool) (r : Reg) : (s.skipIf c).readV r = s.readV r := rfl
@[simp] theorem State.skipIf_readByte (c : Bool) (k : Nat) : (s.skipIf c).readByte k = s.readByte k := rfl
@[simp] theorem State.skipIf_dataAddr (c : Bool) (k : Nat) : (s.skipIf c).dataAddr k = s.dataAddr k := rfl
@[simp] theorem State.skipIf_keyPressed (c : Bool) (k : Fin 16) : (s.skipIf c).keyPressed k = s.keyPressed k := rfl
@[simp] theorem State.writeDT_readV (b : Byte) (r : Reg) : (s.writeDT b).readV r = s.readV r := rfl
@[simp] theorem State.writeDT_readByte (b : Byte) (k : Nat) : (s.writeDT b).readByte k = s.readByte k := rfl
@[simp] theorem State.writeDT_dataAddr (b : Byte) (k : Nat) : (s.writeDT b).dataAddr k = s.dataAddr k := rfl
@[simp] theorem State.writeDT_keyPressed (b : Byte) (k : Fin 16) : (s.writeDT b).keyPressed k = s.keyPressed k := rfl
@[simp] theorem State.writeST_readV (b : Byte) (r : Reg) : (s.writeST b).readV r = s.readV r := rfl
@[simp] theorem State.writeST_readByte (b : Byte) (k : Nat) : (s.writeST b).readByte k = s.readByte k := rfl
@[simp] theorem State.writeST_dataAddr (b : Byte) (k : Nat) : (s.writeST b).dataAddr k = s.dataAddr k := rfl
@[simp] theorem State.writeST_keyPressed (b : Byte) (k : Fin 16) : (s.writeST b).keyPressed k = s.keyPressed k := rfl
@[simp] theorem State.writeByte_readV (a : Nat) (b : Byte) (r : Reg) : (s.writeByte a b).readV r = s.readV r := rfl
@[simp] theorem State.writeByte_dataAddr (a : Nat) (b : Byte) (k : Nat) : (s.writeByte a b).dataAddr k = s.dataAddr k := rfl
@[simp] theorem State.writeByte_keyPressed (a : Nat) (b : Byte) (k : Fin 16) : (s.writeByte a b).keyPressed k = s.keyPressed k := rfl
@[simp] theorem State.fbClear_readV (r : Reg) : (s.fbClear).readV r = s.readV r := rfl
@[simp] theorem State.fbClear_readByte (k : Nat) : (s.fbClear).readByte k = s.readByte k := rfl
@[simp] theorem State.fbClear_dataAddr (k : Nat) : (s.fbClear).dataAddr k = s.dataAddr k := rfl
@[simp] theorem State.fbClear_keyPressed (k : Fin 16) : (s.fbClear).keyPressed k = s.keyPressed k := rfl
@[simp] theorem State.consumeRandom_readV (r : Reg) : (s.consumeRandom).readV r = s.readV r := rfl
@[simp] theorem State.consumeRandom_readByte (k : Nat) : (s.consumeRandom).readByte k = s.readByte k := rfl
@[simp] theorem State.consumeRandom_dataAddr (k : Nat) : (s.consumeRandom).dataAddr k = s.dataAddr k := rfl
@[simp] theorem State.consumeRandom_keyPressed (k : Fin 16) : (s.consumeRandom).keyPressed k = s.keyPressed k := rfl

/-! ## The steps of the timer agent and of the host -/

@[simp] theorem timerTick_v : (timerTick s).v = s.v := rfl
@[simp] theorem timerTick_i : (timerTick s).i = s.i := rfl
@[simp] theorem timerTick_pc : (timerTick s).pc = s.pc := rfl
@[simp] theorem timerTick_stack : (timerTick s).stack = s.stack := rfl
@[simp] theorem timerTick_sp : (timerTick s).sp = s.sp := rfl
@[simp] theorem timerTick_dt : (timerTick s).dt = countDown s.dt := rfl
@[simp] theorem timerTick_st : (timerTick s).st = countDown s.st := rfl
@[simp] theorem timerTick_mem : (timerTick s).mem = s.mem := rfl
@[simp] theorem timerTick_fb : (timerTick s).fb = s.fb := rfl
@[simp] theorem timerTick_status : (timerTick s).status = s.status := rfl
@[simp] theorem timerTick_keys : (timerTick s).keys = s.keys := rfl
@[simp] theorem timerTick_rand : (timerTick s).rand = s.rand := rfl
@[simp] theorem timerTick_font : (timerTick s).font = s.font := rfl
@[simp] theorem timerTick_soundExpired : (timerTick s).soundExpired = if s.st = 1 then s.soundExpired + 1 else s.soundExpired := rfl
@[simp] theorem timerTick_draws : (timerTick s).draws = s.draws := rfl
@[simp] theorem timerTick_agenda : (timerTick s).agenda = s.agenda := rfl
@[simp] theorem timerTick_later : (timerTick s).later = s.later := rfl

@[simp] theorem setKey_v (k : Fin 16) (p : Bool) : (setKey k p s).v = s.v := rfl
@[simp] theorem setKey_i (k : Fin 16) (p : Bool) : (setKey k p s).i = s.i := rfl
@[simp] theorem setKey_pc (k : Fin 16) (p : Bool) : (setKey k p s).pc = s.pc := rfl
@[simp] theorem setKey_stack (k : Fin 16) (p : Bool) : (setKey k p s).stack = s.stack := rfl
@[simp] theorem setKey_sp (k : Fin 16) (p : Bool) : (setKey k p s).sp = s.sp := rfl
@[simp] theorem setKey_dt (k : Fin 16) (p : Bool) : (setKey k p s).dt = s.dt := rfl
@[simp] theorem setKey_st (k : Fin 16) (p : Bool) : (setKey k p s).st = s.st := rfl
@[simp] theorem setKey_mem (k : Fin 16) (p : Bool) : (setKey k p s).mem = s.mem := rfl
@[simp] theorem setKey_fb (k : Fin 16) (p : Bool) : (setKey k p s).fb = s.fb := rfl
@[simp] theorem setKey_status (k : Fin 16) (p : Bool) : (setKey k p s).status = s.status := rfl
@[simp] theorem setKey_keys (k : Fin 16) (p : Bool) : (setKey k p s).keys = s.keys.set k.val p := rfl
@[simp] theorem setKey_rand (k : Fin 16) (p : Bool) : (setKey k p s).rand = s.rand := rfl
@[simp] theorem setKey_font (k : Fin 16) (p : Bool) : (setKey k p s).font = s.font := rfl
@[simp] theorem setKey_soundExpired (k : Fin 16) (p : Bool) : (setKey k p s).soundExpired = s.soundExpired := rfl
@[simp] theorem setKey_draws (k : Fin 16) (p : Bool) : (setKey k p s).draws = s.draws := rfl
@[simp] theorem setKey_agenda (k : Fin 16) (p : Bool) : (setKey k p s).agenda = s.agenda := rfl
@[simp] theorem setKey_later (k : Fin 16) (p : Bool) : (setKey k p s).later = s.later := rfl

@[simp] theorem supplyByte_v (b : Byte) : (supplyByte b s).v = s.v := rfl
@[simp] theorem supplyByte_i (b : Byte) : (supplyByte b s).i = s.i := rfl
@[simp] theorem supplyByte_pc (b : Byte) : (supplyByte b s).pc = s.pc := rfl
@[simp] theorem supplyByte_stack (b : Byte) : (supplyByte b s).stack = s.stack := rfl
@[simp] theorem supplyByte_sp (b : Byte) : (supplyByte b s).sp = s.sp := rfl
@[simp] theorem supplyByte_dt (b : Byte) : (supplyByte b s).dt = s.dt := rfl
@[simp] theorem supplyByte_st (b : Byte) : (supplyByte b s).st = s.st := rfl
@[simp] theorem supplyByte_mem (b : Byte) : (supplyByte b s).mem = s.mem := rfl
@[simp] theorem supplyByte_fb (b : Byte) : (supplyByte b s).fb = s.fb := rfl
@[simp] theorem supplyByte_status (b : Byte) : (supplyByte b s).status = s.status := rfl
@[simp] theorem supplyByte_keys (b : Byte) : (supplyByte b s).keys = s.keys := rfl
@[simp] theorem supplyByte_rand (b : Byte) : (supplyByte b s).rand = s.rand ++ [b] := rfl
@[simp] theorem supplyByte_font (b : Byte) : (supplyByte b s).font = s.font := rfl
@[simp] theorem supplyByte_soundExpired (b : Byte) : (supplyByte b s).soundExpired = s.soundExpired := rfl
@[simp] theorem supplyByte_draws (b : Byte) : (supplyByte b s).draws = s.draws := rfl
@[simp] theorem supplyByte_agenda (b : Byte) : (supplyByte b s).agenda = s.agenda := rfl
@[simp] theorem supplyByte_later (b : Byte) : (supplyByte b s).later = s.later := rfl

@[simp] theorem State.rebuild_v : (s.rebuild).v = Vector.replicate 16 0 := rfl
@[simp] theorem State.rebuild_i : (s.rebuild).i = 0 := rfl
@[simp] theorem State.rebuild_pc : (s.rebuild).pc = 0x200 := rfl
@[simp] theorem State.rebuild_stack : (s.rebuild).stack = Vector.replicate 16 0 := rfl
@[simp] theorem State.rebuild_sp : (s.rebuild).sp = 0 := rfl
@[simp] theorem State.rebuild_dt : (s.rebuild).dt = 0 := rfl
@[simp] theorem State.rebuild_st : (s.rebuild).st = 0 := rfl
@[simp] theorem State.rebuild_mem : (s.rebuild).mem = [] := rfl
@[simp] theorem State.rebuild_fb : (s.rebuild).fb = fbBlank := rfl
@[simp] theorem State.rebuild_status : (s.rebuild).status = s.status := rfl
@[simp] theorem State.rebuild_keys : (s.rebuild).keys = s.keys := rfl
@[simp] theorem State.rebuild_rand : (s.rebuild).rand = s.rand := rfl
@[simp] theorem State.rebuild_font : (s.rebuild).font = s.font := rfl
@[simp] theorem State.rebuild_soundExpired : (s.rebuild).soundExpired = s.soundExpired := rfl
@[simp] theorem State.rebuild_draws : (s.rebuild).draws = s.draws := rfl
@[simp] theorem State.rebuild_agenda : (s.rebuild).agenda = s.agenda := rfl
@[simp] theorem State.rebuild_later : (s.rebuild).later = s.later := rfl

/-! ## Taking the next event off the schedule: the schedule alone changes -/

theorem State.takeEvent_eq :
    s.takeEvent = { s with agenda := s.takeEvent.agenda, later := s.takeEvent.later } := by
  unfold State.takeEvent; split <;> rfl

@[simp] theorem State.takeEvent_v : (s.takeEvent).v = s.v := by rw [State.takeEvent_eq]
@[simp] theorem State.takeEvent_i : (s.takeEvent).i = s.i := by rw [State.takeEvent_eq]
@[simp] theorem State.takeEvent_pc : (s.takeEvent).pc = s.pc := by rw [State.takeEvent_eq]
@[simp] theorem State.takeEvent_stack : (s.takeEvent).stack = s.stack := by rw [State.takeEvent_eq]
@[simp] theorem State.takeEvent_sp : (s.takeEvent).sp = s.sp := by rw [State.takeEvent_eq]
@[simp] theorem State.takeEvent_dt : (s.takeEvent).dt = s.dt := by rw [State.takeEvent_eq]
@[simp] theorem State.takeEvent_st : (s.takeEvent).st = s.st := by rw [State.takeEvent_eq]
@[simp] theorem State.takeEvent_mem : (s.takeEvent).mem = s.mem := by rw [State.takeEvent_eq]
@[simp] theorem State.takeEvent_fb : (s.takeEvent).fb = s.fb := by rw [State.takeEvent_eq]
@[simp] theorem State.takeEvent_status : (s.takeEvent).status = s.status := by rw [State.takeEvent_eq]
@[simp] theorem State.takeEvent_keys : (s.takeEvent).keys = s.keys := by rw [State.takeEvent_eq]
@[simp] theorem State.takeEvent_rand : (s.takeEvent).rand = s.rand := by rw [State.takeEvent_eq]
@[simp] theorem State.takeEvent_font : (s.takeEvent).font = s.font := by rw [State.takeEvent_eq]
@[simp] theorem State.takeEvent_soundExpired : (s.takeEvent).soundExpired = s.soundExpired := by rw [State.takeEvent_eq]
@[simp] theorem State.takeEvent_draws : (s.takeEvent).draws = s.draws := by rw [State.takeEvent_eq]
@[simp] theorem State.takeEvent_readV (r : Reg) : (s.takeEvent).readV r = s.readV r := by rw [State.takeEvent_eq]; rfl
@[simp] theorem State.takeEvent_readByte (k : Nat) : (s.takeEvent).readByte k = s.readByte k := by rw [State.takeEvent_eq]; rfl
@[simp] theorem State.takeEvent_keyPressed (k : Fin 16) : (s.takeEvent).keyPressed k = s.keyPressed k := by
  rw [State.takeEvent_eq]; rfl
@[simp] theorem State.takeEvent_fetch : (s.takeEvent).fetch = s.fetch := by rw [State.takeEvent_eq]; rfl

end Sys2Proof.Machine
end

