-- ==== Sys2Proof/Laws/Register.lean ====
section
/-! SUPPORT. Reading what was written: general registers, keys, the call stack, the framebuffer (10_state.md R20, R24, R27, R28). -/

namespace Sys2Proof.Machine

variable (s t : State) (x y r : Reg) (b f : Byte)

/-! ## General registers -/

/-- A register read after a register written. -/
theorem State.writeV_readV : (s.writeV x b).readV r = if x = r then b else s.readV r := by
  simp only [State.writeV, State.readV, Vector.getElem_set, BitVec.toNat_inj]

@[simp] theorem State.writeV_readV_same : (s.writeV x b).readV x = b := by simp [State.writeV_readV]

theorem State.writeV_readV_of_ne (h : x ≠ r) : (s.writeV x b).readV r = s.readV r := by simp [State.writeV_readV, h]

/-- Two register files that read the same are the same. -/
theorem State.v_ext (h : ∀ r : Reg, s.readV r = t.readV r) : s.v = t.v := by
  apply Vector.ext
  intro k hk
  have := h (BitVec.ofNat 4 k)
  simpa [State.readV, Nat.mod_eq_of_lt hk] using this

@[simp] theorem State.writeFlag_eq : s.writeFlag f = s.writeV VF f := rfl

/-! ## Keys -/

theorem setKey_keyPressed (k j : Fin 16) (p : Bool) :
    (setKey k p s).keyPressed j = if k = j then p else s.keyPressed j := by
  simp only [setKey, State.keyPressed, Vector.getElem_set, Fin.val_inj]

/-! ## Call stack -/

/-- What a push does when there is room (R24). -/
theorem State.push_ok (w : Word) (h : s.sp.val < 16) :
    s.push w = .ok { s with stack := s.stack.set s.sp.val w h, sp := ⟨s.sp.val + 1, by omega⟩ } := by
  simp [State.push, h]

theorem State.push_full (w : Word) (h : s.sp.val = 16) : s.push w = .error ⟨.stackOverflow, s.pc⟩ := by
  simp [State.push, h]

/-- What a pop does when there is an entry (R24). -/
theorem State.pop_ok (h : 0 < s.sp.val) :
    s.pop = .ok (s.stack[s.sp.val - 1]'(by omega), { s with sp := ⟨s.sp.val - 1, by omega⟩ }) := by
  simp [State.pop, h]

theorem State.pop_empty (h : s.sp.val = 0) : s.pop = .error ⟨.stackUnderflow, s.pc⟩ := by
  simp [State.pop, h]

/-! ## Framebuffer -/

@[simp] theorem fbGet_blank (X : Fin 64) (Y : Fin 32) : fbGet fbBlank X Y = false := by
  simp [fbGet, fbBlank]

/-- A pixel after a toggle: inverted where toggled, kept elsewhere (R140). -/
theorem fbGet_fbToggle (fb : Framebuffer) (X X' : Fin 64) (Y Y' : Fin 32) :
    fbGet (fbToggle fb X Y) X' Y' = if X = X' ∧ Y = Y' then !fbGet fb X' Y' else fbGet fb X' Y' := by
  unfold fbToggle fbGet
  by_cases hX : X = X'
  · subst hX
    by_cases hY : Y = Y'
    · subst hY; simp
    · have hv : Y.val ≠ Y'.val := fun h => hY (Fin.ext h)
      simp [hv, hY]
  · have hv : X.val ≠ X'.val := fun h => hX (Fin.ext h)
    simp [hv, hX]

/-- Two framebuffers whose pixels agree are the same. -/
theorem fb_ext (f g : Framebuffer) (h : ∀ X Y, fbGet f X Y = fbGet g X Y) : f = g := by
  apply Vector.ext
  intro i hi
  apply Vector.ext
  intro j hj
  exact h ⟨i, hi⟩ ⟨j, hj⟩

end Sys2Proof.Machine
end

