-- ==== Sys2Proof/Laws/Display.lean ====
section
/-! SUPPORT. What a draw does to the framebuffer and what it reports (45_display.md R142, R143): the spec lemmas of `drawRow` and
`drawRows`. Within one draw no pixel is met twice, because 8 columns are distinct modulo 64 and 15 lines modulo 32. -/

namespace Sys2Proof.Machine

variable {px py r : Nat} {b : Byte}

/-- Some bit of a row, among the columns `cs`, falls on the pixel. -/
def rowCovers (px py r : Nat) (b : Byte) (cs : List Nat) (X : Fin 64) (Y : Fin 32) : Bool :=
  cs.any fun c => spriteBit b c && decide (column px c = X ∧ line py r = Y)

theorem Canvas.drawBit_fb (g : Canvas) (c : Nat) (X : Fin 64) (Y : Fin 32) :
    fbGet (g.drawBit px py r b c).fb X Y =
      (fbGet g.fb X Y ^^ (spriteBit b c && decide (column px c = X ∧ line py r = Y))) := by
  unfold Canvas.drawBit
  split
  · next h => rw [fbGet_fbToggle, h]; by_cases hc : column px c = X ∧ line py r = Y <;> simp [hc]
  · next h => simp [h]

theorem Canvas.drawBit_hit (g : Canvas) (c : Nat) :
    (g.drawBit px py r b c).hit = (g.hit || (spriteBit b c && fbGet g.fb (column px c) (line py r))) := by
  unfold Canvas.drawBit
  split <;> simp_all

theorem rowCovers_line {cs : List Nat} {X : Fin 64} {Y : Fin 32} (h : rowCovers px py r b cs X Y = true) : line py r = Y := by
  simp only [rowCovers, List.any_eq_true, Bool.and_eq_true, decide_eq_true_eq] at h
  obtain ⟨_, _, _, _, h⟩ := h
  exact h

/-- Bits at distinct columns: the covered pixels are inverted, and a hit is a covered pixel that was set before the row. -/
theorem drawBits_spec {cs : List Nat} (hcs : cs.Pairwise fun c d => column px c ≠ column px d) (g : Canvas) :
    (∀ X Y, fbGet (cs.foldl (Canvas.drawBit px py r b) g).fb X Y = (fbGet g.fb X Y ^^ rowCovers px py r b cs X Y)) ∧
    (cs.foldl (Canvas.drawBit px py r b) g).hit =
      (g.hit || cs.any fun c => spriteBit b c && fbGet g.fb (column px c) (line py r)) := by
  induction cs generalizing g with
  | nil => simp [rowCovers]
  | cons c cs ih =>
    rw [List.pairwise_cons] at hcs
    obtain ⟨h1, h2⟩ := ih hcs.2 (g.drawBit px py r b c)
    constructor
    · intro X Y
      rw [List.foldl_cons, h1, Canvas.drawBit_fb, Bool.xor_assoc]
      congr 1
      by_cases hh : (spriteBit b c && decide (column px c = X ∧ line py r = Y)) = true
      · have : rowCovers px py r b cs X Y = false := by
          simp only [Bool.and_eq_true, decide_eq_true_eq] at hh
          simp only [rowCovers, List.any_eq_false, Bool.and_eq_true, decide_eq_true_eq]
          rintro d hd ⟨-, hx, -⟩
          exact hcs.1 d hd (hh.2.1.trans hx.symm)
        rw [this, rowCovers, List.any_cons, hh]; rfl
      · rw [Bool.not_eq_true] at hh
        rw [rowCovers, rowCovers, List.any_cons, hh, Bool.false_xor, Bool.false_or]
    · rw [List.foldl_cons, h2, Canvas.drawBit_hit, List.any_cons, Bool.or_assoc]
      congr 2
      rw [Bool.eq_iff_iff]
      simp only [List.any_eq_true, Bool.and_eq_true]
      refine exists_congr fun d => and_congr_right fun hd => and_congr_right fun _ => ?_
      rw [Canvas.drawBit_fb]
      simp [hcs.1 d hd]

theorem columns_distinct (px : Nat) : (List.range 8).Pairwise fun c d => column px c ≠ column px d := by
  rw [List.pairwise_iff_getElem]
  intro i j hi hj hij h
  simp at hi hj
  simp [column] at h
  omega

theorem lines_distinct (py : Nat) {n : Nat} (hn : n ≤ 32) : (List.range n).Pairwise fun q r => line py q ≠ line py r := by
  rw [List.pairwise_iff_getElem]
  intro i j hi hj hij h
  simp at hi hj
  simp [line] at h
  omega

/-- A row: the covered pixels are inverted, and a hit is a covered pixel that was set before the row. -/
theorem Canvas.drawRow_spec (g : Canvas) :
    (∀ X Y, fbGet (g.drawRow px py r b).fb X Y = (fbGet g.fb X Y ^^ rowCovers px py r b (List.range 8) X Y)) ∧
    (g.drawRow px py r b).hit =
      (g.hit || (List.range 8).any fun c => spriteBit b c && fbGet g.fb (column px c) (line py r)) :=
  drawBits_spec (columns_distinct px) g

/-- Rows on distinct lines. -/
theorem drawRowList_spec (s : State) {rs : List Nat} (hrs : rs.Pairwise fun q r => line py q ≠ line py r) (g : Canvas) :
    (∀ X Y, fbGet (rs.foldl (fun g r => g.drawRow px py r (s.readByte (s.dataAddr r))) g).fb X Y =
      (fbGet g.fb X Y ^^ rs.any fun r => rowCovers px py r (s.readByte (s.dataAddr r)) (List.range 8) X Y)) ∧
    (rs.foldl (fun g r => g.drawRow px py r (s.readByte (s.dataAddr r))) g).hit =
      (g.hit || rs.any fun r => (List.range 8).any fun c =>
        spriteBit (s.readByte (s.dataAddr r)) c && fbGet g.fb (column px c) (line py r)) := by
  induction rs generalizing g with
  | nil => simp
  | cons r rs ih =>
    rw [List.pairwise_cons] at hrs
    obtain ⟨h1, h2⟩ := ih hrs.2 (g.drawRow px py r (s.readByte (s.dataAddr r)))
    obtain ⟨f1, f2⟩ := g.drawRow_spec (px := px) (py := py) (r := r) (b := s.readByte (s.dataAddr r))
    constructor
    · intro X Y
      rw [List.foldl_cons, h1, f1, Bool.xor_assoc, List.any_cons]
      congr 1
      cases hh : rowCovers px py r (s.readByte (s.dataAddr r)) (List.range 8) X Y with
      | false => simp
      | true =>
        have : (rs.any fun r => rowCovers px py r (s.readByte (s.dataAddr r)) (List.range 8) X Y) = false := by
          rw [List.any_eq_false]
          intro q hq hq'
          exact hrs.1 q hq ((rowCovers_line hh).trans (rowCovers_line hq').symm)
        rw [this]; rfl
    · rw [List.foldl_cons, h2, f2, Bool.or_assoc, List.any_cons]
      congr 2
      rw [Bool.eq_iff_iff]
      simp only [List.any_eq_true, Bool.and_eq_true]
      refine exists_congr fun q => and_congr_right fun hq => exists_congr fun c => and_congr_right fun _ =>
        and_congr_right fun _ => ?_
      have : rowCovers px py r (s.readByte (s.dataAddr r)) (List.range 8) (column px c) (line py q) = false := by
        rw [← Bool.not_eq_true]
        exact fun h => hrs.1 q hq (rowCovers_line h)
      rw [f1, this, Bool.xor_false]

/-- The rows of a sprite cover exactly the set `S` of R143. -/
theorem spriteSet_iff (s : State) (x y : Reg) (n : BitVec 4) (X : Fin 64) (Y : Fin 32) :
    SpriteSet s x y n X Y ↔ ((List.range n.toNat).any fun r =>
      rowCovers (s.readV x).toNat (s.readV y).toNat r (s.readByte (s.dataAddr r)) (List.range 8) X Y) = true := by
  simp only [List.any_eq_true, rowCovers, List.mem_range, Bool.and_eq_true, decide_eq_true_eq, SpriteSet, spriteBit, column,
    line, Fin.ext_iff, State.dataAddr]
  constructor
  · rintro ⟨r, c, hr, hc, h, h1, h2⟩; exact ⟨r, hr, c, hc, h, h1.symm, h2.symm⟩
  · rintro ⟨r, hr, c, hc, h, h1, h2⟩; exact ⟨r, c, hr, hc, h, h1.symm, h2.symm⟩

/-- Everything the rows of a draw do: a pixel of the sprite is inverted, another is kept, and a hit is a pixel of the sprite that
was set. -/
theorem State.drawRows_spec (s : State) (x y : Reg) (n : BitVec 4) :
    (∀ X Y, SpriteSet s x y n X Y →
      fbGet (s.drawRows (s.readV x).toNat (s.readV y).toNat n.toNat).fb X Y = !fbGet s.fb X Y) ∧
    (∀ X Y, ¬ SpriteSet s x y n X Y →
      fbGet (s.drawRows (s.readV x).toNat (s.readV y).toNat n.toNat).fb X Y = fbGet s.fb X Y) ∧
    ((s.drawRows (s.readV x).toNat (s.readV y).toNat n.toNat).hit = true ↔
      ∃ X Y, SpriteSet s x y n X Y ∧ fbGet s.fb X Y = true) := by
  have hn := n.isLt
  obtain ⟨h1, h2⟩ := drawRowList_spec (px := (s.readV x).toNat) s (lines_distinct (s.readV y).toNat (n := n.toNat) (by omega))
    ⟨s.fb, false⟩
  refine ⟨fun X Y h => ?_, fun X Y h => ?_, ?_⟩
  · rw [spriteSet_iff] at h; rw [State.drawRows, h1, h]; simp
  · rw [spriteSet_iff, Bool.not_eq_true] at h; rw [State.drawRows, h1, h]; simp
  · rw [State.drawRows, h2, Bool.false_or]
    simp only [List.any_eq_true, List.mem_range, Bool.and_eq_true, SpriteSet, spriteBit, State.dataAddr]
    constructor
    · rintro ⟨r, hr, c, hc, h, hf⟩; exact ⟨_, _, ⟨r, c, hr, hc, h, rfl, rfl⟩, hf⟩
    · rintro ⟨X, Y, ⟨r, c, hr, hc, h, h1, h2⟩, hf⟩
      refine ⟨r, hr, c, hc, h, ?_⟩
      rw [show column (s.readV x).toNat c = X from Fin.ext h1.symm, show line (s.readV y).toNat r = Y from Fin.ext h2.symm]
      exact hf

end Sys2Proof.Machine
end

