-- ==== Sys2Proof/Laws/Memory.lean ====
section
/-! SUPPORT. The laws of memory (20_memory.md R43, R48, R51): what a read after a write gives, and that every operation keeps the
canonical form. -/

namespace Sys2Proof.Machine

variable {font : Vector Byte 80} {m : Memory} {lo a a' k : Nat} {b c : Byte}

/-- One step of the canonical form. -/
theorem Memory.wfFrom_cons :
    Memory.wfFrom font lo ((k, c) :: m) = true ↔
      lo ≤ k ∧ k ≤ 0xFFF ∧ c ≠ Memory.unlisted font k ∧ Memory.wfFrom font (k + 1) m = true := by
  simp [Memory.wfFrom, and_assoc]

/-- The canonical form from `lo` is one from any lower address. -/
theorem Memory.wfFrom_mono (h : Memory.wfFrom font lo m = true) (hlo : a ≤ lo) : Memory.wfFrom font a m = true := by
  cases m with
  | nil => rfl
  | cons p m =>
    obtain ⟨k, c⟩ := p
    rw [Memory.wfFrom_cons] at h ⊢
    exact ⟨le_trans hlo h.1, h.2⟩

/-- No address below `lo` is listed in a canonical form from `lo`. -/
theorem Memory.find?_below (h : Memory.wfFrom font lo m = true) (ha : a < lo) : Memory.find? m a = none := by
  induction m generalizing lo with
  | nil => rfl
  | cons p m ih =>
    obtain ⟨k, c⟩ := p
    rw [Memory.wfFrom_cons] at h
    have hk : k ≠ a := by omega
    simpa [Memory.find?, hk] using ih h.2.2.2 (by omega)

theorem Memory.find?_insert : Memory.find? (Memory.insert m a b) a' = if a = a' then some b else Memory.find? m a' := by
  induction m with
  | nil => simp [Memory.insert, Memory.find?]
  | cons p m ih =>
    obtain ⟨k, c⟩ := p
    rcases Nat.lt_trichotomy a k with hlt | heq | hgt
    · simp [Memory.insert, Memory.find?, hlt]
    · subst heq; by_cases ha : a = a' <;> simp [Memory.insert, Memory.find?, ha]
    · have h1 : ¬ a < k := by omega
      have h2 : a ≠ k := by omega
      simp only [Memory.insert, h1, h2, if_false, Memory.find?, ih]
      by_cases hk : k = a'
      · simp [hk, show a ≠ a' by omega]
      · simp [hk]

theorem Memory.find?_erase_of_ne (hne : a ≠ a') : Memory.find? (Memory.erase m a) a' = Memory.find? m a' := by
  induction m with
  | nil => rfl
  | cons p m ih =>
    obtain ⟨k, c⟩ := p
    by_cases hk : k = a
    · simp [Memory.erase, Memory.find?, hk, hne]
    · simp only [Memory.erase, hk, if_false, Memory.find?, ih]

theorem Memory.find?_erase_same (h : Memory.wfFrom font lo m = true) : Memory.find? (Memory.erase m a) a = none := by
  induction m generalizing lo with
  | nil => rfl
  | cons p m ih =>
    obtain ⟨k, c⟩ := p
    rw [Memory.wfFrom_cons] at h
    by_cases hk : k = a
    · subst hk; simpa [Memory.erase] using Memory.find?_below h.2.2.2 (Nat.lt_succ_self k)
    · simpa only [Memory.erase, hk, if_false, Memory.find?] using ih h.2.2.2

/-- A write leaves every other address as it was, in any memory. -/
theorem Memory.read_write_of_ne (hne : a ≠ a') :
    Memory.read font (Memory.write font m a b) a' = Memory.read font m a' := by
  unfold Memory.write Memory.read
  split
  · rw [Memory.find?_erase_of_ne hne]
  · rw [Memory.find?_insert, if_neg hne]

/-- A read of the address just written gives the byte written. -/
theorem Memory.read_write_same (h : Memory.wf font m = true) :
    Memory.read font (Memory.write font m a b) a = b := by
  unfold Memory.write Memory.read
  split
  · next hb => rw [Memory.find?_erase_same h, hb]; rfl
  · rw [Memory.find?_insert, if_pos rfl]; rfl

/-- A read after a write gives the byte written there, and elsewhere what it gave before (R51). -/
theorem Memory.read_write (h : Memory.wf font m = true) :
    Memory.read font (Memory.write font m a b) a' = if a = a' then b else Memory.read font m a' := by
  by_cases ha : a = a'
  · subst ha; rw [if_pos rfl, Memory.read_write_same h]
  · rw [if_neg ha, Memory.read_write_of_ne ha]

theorem Memory.wfFrom_insert (h : Memory.wfFrom font lo m = true) (hlo : lo ≤ a) (ha : a ≤ 0xFFF)
    (hb : b ≠ Memory.unlisted font a) : Memory.wfFrom font lo (Memory.insert m a b) = true := by
  induction m generalizing lo with
  | nil => simp [Memory.insert, hlo, ha, hb, Memory.wfFrom]
  | cons p m ih =>
    obtain ⟨k, c⟩ := p
    rw [Memory.wfFrom_cons] at h
    rcases Nat.lt_trichotomy a k with hlt | heq | hgt
    · simp only [Memory.insert, hlt, if_true, Memory.wfFrom_cons]
      exact ⟨hlo, ha, hb, by omega, h.2⟩
    · subst heq
      simp only [Memory.insert, lt_irrefl, if_false, if_true, Memory.wfFrom_cons]
      exact ⟨hlo, ha, hb, h.2.2.2⟩
    · have h1 : ¬ a < k := by omega
      have h2 : a ≠ k := by omega
      simp only [Memory.insert, h1, h2, if_false, Memory.wfFrom_cons]
      exact ⟨h.1, h.2.1, h.2.2.1, ih h.2.2.2 (by omega)⟩

theorem Memory.wfFrom_erase (h : Memory.wfFrom font lo m = true) : Memory.wfFrom font lo (Memory.erase m a) = true := by
  induction m generalizing lo with
  | nil => rfl
  | cons p m ih =>
    obtain ⟨k, c⟩ := p
    rw [Memory.wfFrom_cons] at h
    by_cases hk : k = a
    · simp only [Memory.erase, hk, if_true]
      exact Memory.wfFrom_mono h.2.2.2 (by omega)
    · simp only [Memory.erase, hk, if_false, Memory.wfFrom_cons]
      exact ⟨h.1, h.2.1, h.2.2.1, ih h.2.2.2⟩

/-- A write to an address of `MEM` keeps the canonical form. -/
theorem Memory.wf_write (h : Memory.wf font m = true) (ha : a ≤ 0xFFF) :
    Memory.wf font (Memory.write font m a b) = true := by
  unfold Memory.write
  by_cases hb : b = Memory.unlisted font a
  · rw [if_pos hb]; exact Memory.wfFrom_erase h
  · rw [if_neg hb]; exact Memory.wfFrom_insert h (Nat.zero_le a) ha hb

/-- Two canonical forms that read the same everywhere are the same data. -/
theorem Memory.ext_of_read {m' : Memory} (h : Memory.wfFrom font lo m = true) (h' : Memory.wfFrom font lo m' = true)
    (hr : ∀ a, Memory.read font m a = Memory.read font m' a) : m = m' := by
  induction m generalizing lo m' with
  | nil =>
    cases m' with
    | nil => rfl
    | cons p m' =>
      obtain ⟨k, c⟩ := p
      rw [Memory.wfFrom_cons] at h'
      have := hr k
      simp [Memory.read, Memory.find?] at this
      exact absurd this.symm h'.2.2.1
  | cons p m ih =>
    obtain ⟨k, c⟩ := p
    have h0 := h
    rw [Memory.wfFrom_cons] at h
    cases m' with
    | nil =>
      have := hr k
      simp [Memory.read, Memory.find?] at this
      exact absurd this h.2.2.1
    | cons p' m' =>
      obtain ⟨k', c'⟩ := p'
      have h0' := h'
      rw [Memory.wfFrom_cons] at h'
      rcases Nat.lt_trichotomy k k' with hlt | heq | hgt
      · have hk := hr k
        have : Memory.find? m' k = none := Memory.find?_below h'.2.2.2 (by omega)
        simp [Memory.read, Memory.find?, this, Nat.ne_of_gt hlt] at hk
        exact absurd hk h.2.2.1
      · subst heq
        have hc : c = c' := by simpa [Memory.read, Memory.find?] using hr k
        subst hc
        rw [ih h.2.2.2 h'.2.2.2]
        intro a
        by_cases ha : k = a
        · subst ha
          simp [Memory.read, Memory.find?_below h.2.2.2 (Nat.lt_succ_self _),
            Memory.find?_below h'.2.2.2 (Nat.lt_succ_self _)]
        · simpa [Memory.read, Memory.find?, ha] using hr a
      · have hk := hr k'
        have : Memory.find? m k' = none := Memory.find?_below h.2.2.2 (by omega)
        simp [Memory.read, Memory.find?, this, Nat.ne_of_gt hgt] at hk
        exact absurd hk.symm h'.2.2.1

/-! ## The same on a state -/

/-- A byte written leaves every other address as it was, in any state. -/
theorem State.writeByte_readByte_of_ne (s : State) (hne : a ≠ a') : (s.writeByte a b).readByte a' = s.readByte a' :=
  Memory.read_write_of_ne hne

/-- A byte read after a byte written. -/
theorem State.writeByte_readByte (s : State) (h : Memory.wf s.font s.mem = true) :
    (s.writeByte a b).readByte a' = if a = a' then b else s.readByte a' :=
  Memory.read_write h

/-- A byte written to an address of `MEM` keeps the canonical form of the state's memory. -/
theorem State.writeByte_wf (s : State) (h : Memory.wf s.font s.mem = true) (ha : a ≤ 0xFFF) :
    Memory.wf (s.writeByte a b).font (s.writeByte a b).mem = true :=
  Memory.wf_write h ha

end Sys2Proof.Machine
end

