-- ==== Sys2Proof/Laws/Ops.lean ====
section
/-! SUPPORT. One spec lemma per shared operation, for the provers to cite instead of unfolding it. -/

namespace Sys2Proof.Machine

variable {s t u : State} {n k a : Nat} {font : Vector Byte 80}

/-! ## Errors -/

theorem State.raise_eq (s : State) (r : Raised) : s.raise r = .next { s with status := .halt r.error r.info } := rfl

@[simp] theorem State.commit_ok (s t : State) : s.commit (.ok t) = .next t := rfl
@[simp] theorem State.commit_error (s : State) (r : Raised) : s.commit (.error r) = s.raise r := rfl

/-- A raising step always answers, and changes STATUS alone (R161). -/
theorem State.raise_next {r : Raised} (h : s.raise r = .next t) : t = { s with status := .halt r.error r.info } := by
  rw [State.raise_eq] at h; exact (Host.Outcome.next.inj h).symm

/-! ## The range check of R50 -/

theorem State.dataInRange_iff : s.dataInRange n = true ↔ n = 0 ∨ s.i.toNat + (n - 1) ≤ 0xFFF :=
  decide_eq_true_iff

theorem State.dataInRange_succ : s.dataInRange (n + 1) = true ↔ s.i.toNat + n ≤ 0xFFF := by
  simp [State.dataInRange_iff]

theorem State.ifInRange_of_true (h : s.dataInRange n = true) : s.ifInRange n t = .next t := by
  simp [State.ifInRange, h]

theorem State.ifInRange_of_false (h : s.dataInRange n = false) :
    s.ifInRange n t = s.raise ⟨.addressOutOfRange, 0x1000⟩ := by
  simp [State.ifInRange, h]

/-- Everything the range check can do. -/
theorem State.ifInRange_next (h : s.ifInRange n t = .next u) :
    (s.dataInRange n = true ∧ u = t) ∨
      (s.dataInRange n = false ∧ u = { s with status := .halt .addressOutOfRange 0x1000 }) := by
  cases hr : s.dataInRange n with
  | true => rw [State.ifInRange_of_true hr] at h; exact .inl ⟨rfl, (Host.Outcome.next.inj h).symm⟩
  | false => rw [State.ifInRange_of_false hr] at h; exact .inr ⟨rfl, State.raise_next h⟩

/-! ## Reading memory and fetching (R43, R44) -/

theorem State.memRead_ok (h : a ≤ 0xFFF) : s.memRead a = .ok (s.readByte a) := by simp [State.memRead, h]

theorem State.memRead_error (h : 0xFFF < a) : s.memRead a = .error ⟨.addressOutOfRange, BitVec.ofNat 16 a⟩ := by
  simp [State.memRead, Nat.not_le.mpr h]

/-- A fetch succeeds exactly when both bytes lie in memory (R44). -/
theorem State.fetch_ok (h : s.pc.toNat ≤ 0xFFE) :
    s.fetch = .ok (wordOfBytes (s.readByte s.pc.toNat) (s.readByte (s.pc.toNat + 1))) := by
  simp only [State.fetch, State.memRead_ok (s := s) (show s.pc.toNat ≤ 0xFFF by omega),
    State.memRead_ok (s := s) (show s.pc.toNat + 1 ≤ 0xFFF by omega)]

theorem State.fetch_error (h : 0xFFF < s.pc.toNat) : s.fetch = .error ⟨.addressOutOfRange, s.pc⟩ := by
  simp [State.fetch, State.memRead_error h]

theorem State.fetch_error_last (h : s.pc.toNat = 0xFFF) : s.fetch = .error ⟨.addressOutOfRange, 0x1000⟩ := by
  simp only [State.fetch, h, State.memRead_ok (s := s) (show (0xFFF : Nat) ≤ 0xFFF by omega),
    State.memRead_error (s := s) (show 0xFFF < 0xFFF + 1 by omega)]
  rfl

/-- Everything a fetch can do. -/
theorem State.fetch_cases (s : State) :
    (s.pc.toNat ≤ 0xFFE ∧ s.fetch = .ok (wordOfBytes (s.readByte s.pc.toNat) (s.readByte (s.pc.toNat + 1)))) ∨
    (s.pc.toNat = 0xFFF ∧ s.fetch = .error ⟨.addressOutOfRange, 0x1000⟩) ∨
    (0xFFF < s.pc.toNat ∧ s.fetch = .error ⟨.addressOutOfRange, s.pc⟩) := by
  rcases Nat.lt_trichotomy s.pc.toNat 0xFFF with h | h | h
  · exact .inl ⟨by omega, State.fetch_ok (by omega)⟩
  · exact .inr (.inl ⟨h, State.fetch_error_last h⟩)
  · exact .inr (.inr ⟨h, State.fetch_error h⟩)

/-! ## Block transfers (R134, R135) -/

theorem blockReg_toNat (h : k < 16) : (blockReg k).toNat = k := by
  simp [blockReg, Nat.mod_eq_of_lt h]

/-- A store block writes memory and nothing else. -/
theorem State.storeBlock_eq (s : State) (n : Nat) : s.storeBlock n = { s with mem := (s.storeBlock n).mem } := by
  induction n with
  | zero => rfl
  | succ n ih => simp only [State.storeBlock, State.writeByte]; rw [ih]

theorem State.storeBlock_readV (r : Reg) : (s.storeBlock n).readV r = s.readV r := by rw [State.storeBlock_eq]; rfl
theorem State.storeBlock_dataAddr : (s.storeBlock n).dataAddr k = s.dataAddr k := by rw [State.storeBlock_eq]; rfl
theorem State.storeBlock_font : (s.storeBlock n).font = s.font := by rw [State.storeBlock_eq]
theorem State.storeBlock_pc : (s.storeBlock n).pc = s.pc := by rw [State.storeBlock_eq]

/-- A store block leaves every byte outside `I .. I + n - 1` as it was, in any state. -/
theorem State.storeBlock_readByte_of_ne (h : ∀ k, k < n → s.dataAddr k ≠ a) : (s.storeBlock n).readByte a = s.readByte a := by
  induction n with
  | zero => rfl
  | succ n ih =>
    have hn : (s.storeBlock n).dataAddr n ≠ a := by rw [State.storeBlock_dataAddr]; exact h n (Nat.lt_succ_self n)
    rw [State.storeBlock, State.writeByte_readByte_of_ne _ hn, ih fun k hk => h k (Nat.lt_succ_of_lt hk)]

/-- A store block within memory keeps the canonical form. -/
theorem State.storeBlock_wf (h : Memory.wf s.font s.mem = true) (hn : n = 0 ∨ s.dataAddr (n - 1) ≤ 0xFFF) :
    Memory.wf (s.storeBlock n).font (s.storeBlock n).mem = true := by
  induction n with
  | zero => exact h
  | succ n ih =>
    have hn : s.i.toNat + n ≤ 0xFFF := by simpa [State.dataAddr] using hn
    refine State.writeByte_wf _ (ih ?_) ?_
    · simp only [State.dataAddr]; omega
    · rw [State.storeBlock_dataAddr, State.dataAddr]; omega

/-- What a store block stores: `V[k]` at `I + k`. -/
theorem State.storeBlock_readByte (h : Memory.wf s.font s.mem = true) (hn : n = 0 ∨ s.dataAddr (n - 1) ≤ 0xFFF)
    (hk : k < n) : (s.storeBlock n).readByte (s.dataAddr k) = s.readV (blockReg k) := by
  induction n with
  | zero => omega
  | succ n ih =>
    have hn : s.i.toNat + n ≤ 0xFFF := by simpa [State.dataAddr] using hn
    have hn' : n = 0 ∨ s.dataAddr (n - 1) ≤ 0xFFF := by simp only [State.dataAddr]; omega
    rw [State.storeBlock, State.writeByte_readByte _ (State.storeBlock_wf h hn'), State.storeBlock_dataAddr,
      State.storeBlock_readV]
    by_cases hkn : k = n
    · simp [hkn]
    · have : s.dataAddr n ≠ s.dataAddr k := by simp only [State.dataAddr]; omega
      rw [if_neg this, ih hn' (by omega)]

/-- A load block writes general registers and nothing else. -/
theorem State.loadBlock_eq (s : State) (n : Nat) : s.loadBlock n = { s with v := (s.loadBlock n).v } := by
  induction n with
  | zero => rfl
  | succ n ih => simp only [State.loadBlock, State.writeV]; rw [ih]

theorem State.loadBlock_readByte : (s.loadBlock n).readByte a = s.readByte a := by rw [State.loadBlock_eq]; rfl
theorem State.loadBlock_dataAddr : (s.loadBlock n).dataAddr k = s.dataAddr k := by rw [State.loadBlock_eq]; rfl
theorem State.loadBlock_pc : (s.loadBlock n).pc = s.pc := by rw [State.loadBlock_eq]

/-- What a load block loads: `MEM[I + k]` into `V[k]` for `k < n`; the other registers are kept. -/
theorem State.loadBlock_readV (r : Reg) (hn : n ≤ 16) :
    (s.loadBlock n).readV r = if r.toNat < n then s.readByte (s.dataAddr r.toNat) else s.readV r := by
  induction n with
  | zero => simp [State.loadBlock]
  | succ n ih =>
    rw [State.loadBlock, State.writeV_readV, State.loadBlock_readByte, State.loadBlock_dataAddr, ih (by omega)]
    have hb : blockReg n = r ↔ n = r.toNat := by
      rw [← BitVec.toNat_inj, blockReg_toNat (by omega)]
    by_cases h : n = r.toNat
    · subst h; rw [if_pos (hb.mpr rfl), if_pos (Nat.lt_succ_self _)]
    · rw [if_neg (mt hb.mp h)]
      by_cases hr : r.toNat < n
      · rw [if_pos hr, if_pos (by omega)]
      · rw [if_neg hr, if_neg (by omega)]

/-! ## Keys (R152) -/

theorem State.mem_pressedKeys (k : Fin 16) : k ∈ s.pressedKeys ↔ s.keyPressed k = true := by
  simp [State.pressedKeys]

/-- The key selected is one of the keys given. -/
theorem keySelect_mem {ks : List (Fin 16)} {k : Fin 16} (h : keySelect ks = some k) : k ∈ ks := by
  unfold keySelect at h
  split at h
  · cases h
  · simp at h; simp [h]
  · exact List.mem_of_getElem? h

/-- A key is selected exactly when one is given. -/
theorem keySelect_none {ks : List (Fin 16)} : keySelect ks = none ↔ ks = [] := by
  unfold keySelect
  split
  · simp
  · simp
  · next h1 _ =>
    have hne : ks ≠ [] := h1
    have hlt := Nat.mod_lt (Config.keyChoice ks) (List.length_pos_iff.mpr hne)
    simp [Nat.not_le.mpr hlt, hne]

/-! ## The image of a Load (R190, R191) -/

/-- The cells of an image are in canonical form when it fits in memory. -/
theorem imageCells_wf (image : List Byte) (h : a + image.length ≤ 0x1000) :
    Memory.wfFrom font a (imageCells font a image) = true := by
  induction image generalizing a with
  | nil => rfl
  | cons b rest ih =>
    have hr : a + 1 + rest.length ≤ 0x1000 := by simp at h; omega
    simp only [imageCells]
    split
    · exact Memory.wfFrom_mono (ih hr) (by omega)
    · next hb => rw [Memory.wfFrom_cons]; exact ⟨le_rfl, by simp at h; omega, hb, ih hr⟩

/-- What memory reads as over the cells of an image: the image's bytes from `a`, unlisted memory elsewhere. -/
theorem imageCells_read (image : List Byte) (k : Nat) (h : a + image.length ≤ 0x1000) :
    Memory.read font (imageCells font a image) k =
      if a ≤ k then (image[k - a]?).getD (Memory.unlisted font k) else Memory.unlisted font k := by
  induction image generalizing a with
  | nil => simp [imageCells, Memory.read, Memory.find?]
  | cons b rest ih =>
    have hr : a + 1 + rest.length ≤ 0x1000 := by simp at h; omega
    have ih := ih (a := a + 1) hr
    have hwf := imageCells_wf (font := font) (a := a + 1) rest hr
    rcases Nat.lt_trichotomy k a with hlt | heq | hgt
    · rw [if_neg (by omega)] at ih ⊢
      simp only [imageCells]
      split
      · exact ih
      · simpa [Memory.read, Memory.find?, Nat.ne_of_gt hlt] using ih
    · subst heq
      rw [if_pos le_rfl]
      simp only [imageCells]
      split
      · next hb => rw [if_neg (by omega)] at ih; simpa [hb] using ih
      · simp [Memory.read, Memory.find?]
    · rw [if_pos (by omega)] at ih ⊢
      have hk : k - a = (k - (a + 1)) + 1 := by omega
      rw [hk, List.getElem?_cons_succ, ← ih]
      simp only [imageCells]
      split
      · rfl
      · simp [Memory.read, Memory.find?, Nat.ne_of_lt hgt]

/-! ## What a step can do -/

/-- The machine's step is the moving agent's. -/
theorem step_eq (s : State) : step s = nextStep s := rfl

/-- A step is the next event's, on the state without that event. -/
theorem step_event {e : Event} (h : s.nextEvent = some e) : step s = act e s.takeEvent := by simp only [step, nextStep, h]

/-- Where the schedule has no agent move, a step takes that off the schedule and does nothing else. -/
theorem step_no_event (h : s.nextEvent = none) : step s = .next s.takeEvent := by simp only [step, nextStep, h]

/-- Everything a step can be (R5, R7). -/
theorem step_cases (s : State) :
    (s.nextEvent = none ∧ step s = .next s.takeEvent) ∨
    (s.nextEvent = some .cpuTick ∧ step s = cpuTick s.takeEvent) ∨
    (s.nextEvent = some .timerTick ∧ step s = .next (timerTick s.takeEvent)) ∨
    (∃ k pressed, s.nextEvent = some (.setKey k pressed) ∧ step s = .next (setKey k pressed s.takeEvent)) ∨
    (∃ b, s.nextEvent = some (.supplyByte b) ∧ step s = .next (supplyByte b s.takeEvent)) ∨
    (∃ image, s.nextEvent = some (.load image) ∧ step s = .next (load image s.takeEvent)) := by
  rcases h : s.nextEvent with _ | e
  · exact .inl ⟨rfl, step_no_event h⟩
  · have hs := step_event h
    cases e with
    | cpuTick => exact .inr (.inl ⟨rfl, hs⟩)
    | timerTick => exact .inr (.inr (.inl ⟨rfl, hs⟩))
    | setKey k pressed => exact .inr (.inr (.inr (.inl ⟨k, pressed, rfl, hs⟩)))
    | supplyByte b => exact .inr (.inr (.inr (.inr (.inl ⟨b, rfl, hs⟩))))
    | load image => exact .inr (.inr (.inr (.inr (.inr ⟨image, rfl, hs⟩))))

/-- Everything a CPU tick can do (R6, R167, R171). -/
theorem cpuTick_cases (s : State) :
    ((∃ e info, s.status = .halt e info) ∧ cpuTick s = .next s) ∨
    (s.status = .run ∧ ∃ r, s.fetch = .error r ∧ cpuTick s = s.raise r) ∨
    (s.status = .run ∧ ∃ op e, s.fetch = .ok op ∧ decodeWord op = .error e ∧ cpuTick s = s.raise ⟨.unknownOpcode, op⟩) ∨
    (s.status = .run ∧ ∃ op i, s.fetch = .ok op ∧ decodeWord op = .ok i ∧ cpuTick s = exec i s) := by
  unfold cpuTick
  cases hs : s.status with
  | halt e info => exact .inl ⟨⟨e, info, rfl⟩, rfl⟩
  | run =>
    refine .inr ?_
    cases hf : s.fetch with
    | error r => exact .inl ⟨rfl, r, rfl, rfl⟩
    | ok op =>
      refine .inr ?_
      cases hd : decodeWord op with
      | error e => exact .inl ⟨rfl, op, e, rfl, hd, by simp [decodeAndExecute, hd]⟩
      | ok i => exact .inr ⟨rfl, op, i, rfl, hd, by simp [decodeAndExecute, hd]⟩

end Sys2Proof.Machine
end

