-- ==== Sys2Proof/Laws/PerInstr.lean ====
section
/-! SUPPORT. Family `Encodes`, one lemma per constructor: the word of every instruction, with every operand, is well-formed, that is,
some row of the table of 30_encoding.md R64 selects it. -/

namespace Sys2Proof

theorem append_and_append {v w : Nat} (a c : BitVec v) (b d : BitVec w) : (a ++ b) &&& (c ++ d) = (a &&& c) ++ (b &&& d) := by
  apply BitVec.eq_of_getLsbD_eq
  intro i _
  simp only [BitVec.getLsbD_and, BitVec.getLsbD_append]
  split <;> rfl

/-- The mask of a row of format A keeps the major nibble. -/
theorem formatA_major (m : BitVec 4) (nnn : BitVec 12) : formatA m nnn &&& 0xF000#16 = formatA m 0 := by
  rw [show (0xF000#16 : Word) = 0xF#4 ++ 0x000#12 from rfl, formatA, append_and_append, formatA]
  congr 1
  · revert m; decide
  · simp

/-- The mask of a row of format XK keeps the major nibble. -/
theorem formatXK_major (m : BitVec 4) (x : Reg) (kk : Byte) : formatXK m x kk &&& 0xF000#16 = formatXK m 0 0 := by
  rw [show (0xF000#16 : Word) = 0xF#4 ++ 0x0#4 ++ 0x00#8 from rfl, formatXK, append_and_append, append_and_append, formatXK]
  congr 2
  · revert m; decide
  · simp
  · simp

/-- The mask of a row of format X keeps the major nibble and the low byte. -/
theorem formatXK_minor (m : BitVec 4) (x : Reg) (kk : Byte) : formatXK m x kk &&& 0xF0FF#16 = formatXK m 0 kk := by
  rw [show (0xF0FF#16 : Word) = 0xF#4 ++ 0x0#4 ++ 0xFF#8 from rfl, formatXK, append_and_append, append_and_append, formatXK]
  congr 2
  · revert m; decide
  · simp
  · revert kk; decide

/-- The mask of a row of format XYN keeps the major nibble. -/
theorem formatXYN_major (m : BitVec 4) (x y : Reg) (n : BitVec 4) : formatXYN m x y n &&& 0xF000#16 = formatXYN m 0 0 0 := by
  rw [show (0xF000#16 : Word) = 0xF#4 ++ 0x0#4 ++ 0x0#4 ++ 0x0#4 from rfl, formatXYN, append_and_append, append_and_append,
    append_and_append, formatXYN]
  congr 3
  · revert m; decide
  · simp
  · simp
  · simp

/-- The mask of a row of format XY keeps the major nibble and the low nibble. -/
theorem formatXYN_minor (m : BitVec 4) (x y : Reg) (n : BitVec 4) : formatXYN m x y n &&& 0xF00F#16 = formatXYN m 0 0 n := by
  rw [show (0xF00F#16 : Word) = 0xF#4 ++ 0x0#4 ++ 0x0#4 ++ 0xF#4 from rfl, formatXYN, append_and_append, append_and_append,
    append_and_append, formatXYN]
  congr 3
  · revert m; decide
  · simp
  · simp
  · revert n; decide

/-- A word is well-formed when a row of the table selects it. -/
theorem wordWellFormed_of_row {op mask pat : Word} (mnemonic : String) (hr : ⟨mnemonic, mask, pat⟩ ∈ opcodeTable)
    (h : op &&& mask = pat) : wordWellFormed op = true :=
  List.any_eq_true.mpr ⟨_, hr, by simpa [OpcodeRow.selects] using h⟩

namespace Laws.Encodes

/-- The instruction's word is one the table of R64 admits. -/
def Statement (i : Instr) : Prop := wordWellFormed (encode i) = true

theorem cls : Statement .cls := by unfold Statement; decide
theorem ret : Statement .ret := by unfold Statement; decide
theorem jp (nnn : BitVec 12) : Statement (.jp nnn) :=
  wordWellFormed_of_row (pat := 0x1000#16) "JP_nnn" (by decide) (formatA_major _ _)
theorem call (nnn : BitVec 12) : Statement (.call nnn) :=
  wordWellFormed_of_row (pat := 0x2000#16) "CALL_nnn" (by decide) (formatA_major _ _)
theorem seByte (x : Reg) (kk : Byte) : Statement (.seByte x kk) :=
  wordWellFormed_of_row (pat := 0x3000#16) "SE_Vx__kk" (by decide) (formatXK_major _ _ _)
theorem sneByte (x : Reg) (kk : Byte) : Statement (.sneByte x kk) :=
  wordWellFormed_of_row (pat := 0x4000#16) "SNE_Vx__kk" (by decide) (formatXK_major _ _ _)
theorem seReg (x y : Reg) : Statement (.seReg x y) :=
  wordWellFormed_of_row (pat := 0x5000#16) "SE_Vx__Vy" (by decide) (formatXYN_minor _ _ _ _)
theorem ldByte (x : Reg) (kk : Byte) : Statement (.ldByte x kk) :=
  wordWellFormed_of_row (pat := 0x6000#16) "LD_Vx__kk" (by decide) (formatXK_major _ _ _)
theorem addByte (x : Reg) (kk : Byte) : Statement (.addByte x kk) :=
  wordWellFormed_of_row (pat := 0x7000#16) "ADD_Vx__kk" (by decide) (formatXK_major _ _ _)
theorem ldReg (x y : Reg) : Statement (.ldReg x y) :=
  wordWellFormed_of_row (pat := 0x8000#16) "LD_Vx__Vy" (by decide) (formatXYN_minor _ _ _ _)
theorem orReg (x y : Reg) : Statement (.orReg x y) :=
  wordWellFormed_of_row (pat := 0x8001#16) "OR_Vx__Vy" (by decide) (formatXYN_minor _ _ _ _)
theorem andReg (x y : Reg) : Statement (.andReg x y) :=
  wordWellFormed_of_row (pat := 0x8002#16) "AND_Vx__Vy" (by decide) (formatXYN_minor _ _ _ _)
theorem xorReg (x y : Reg) : Statement (.xorReg x y) :=
  wordWellFormed_of_row (pat := 0x8003#16) "XOR_Vx__Vy" (by decide) (formatXYN_minor _ _ _ _)
theorem addReg (x y : Reg) : Statement (.addReg x y) :=
  wordWellFormed_of_row (pat := 0x8004#16) "ADD_Vx__Vy" (by decide) (formatXYN_minor _ _ _ _)
theorem sub (x y : Reg) : Statement (.sub x y) :=
  wordWellFormed_of_row (pat := 0x8005#16) "SUB_Vx__Vy" (by decide) (formatXYN_minor _ _ _ _)
theorem shr (x y : Reg) : Statement (.shr x y) :=
  wordWellFormed_of_row (pat := 0x8006#16) "SHR_Vx" (by decide) (formatXYN_minor _ _ _ _)
theorem subn (x y : Reg) : Statement (.subn x y) :=
  wordWellFormed_of_row (pat := 0x8007#16) "SUBN_Vx__Vy" (by decide) (formatXYN_minor _ _ _ _)
theorem shl (x y : Reg) : Statement (.shl x y) :=
  wordWellFormed_of_row (pat := 0x800E#16) "SHL_Vx" (by decide) (formatXYN_minor _ _ _ _)
theorem sneReg (x y : Reg) : Statement (.sneReg x y) :=
  wordWellFormed_of_row (pat := 0x9000#16) "SNE_Vx__Vy" (by decide) (formatXYN_minor _ _ _ _)
theorem ldI (nnn : BitVec 12) : Statement (.ldI nnn) :=
  wordWellFormed_of_row (pat := 0xA000#16) "LD_I__nnn" (by decide) (formatA_major _ _)
theorem jpV0 (nnn : BitVec 12) : Statement (.jpV0 nnn) :=
  wordWellFormed_of_row (pat := 0xB000#16) "JP_V0__nnn" (by decide) (formatA_major _ _)
theorem rnd (x : Reg) (kk : Byte) : Statement (.rnd x kk) :=
  wordWellFormed_of_row (pat := 0xC000#16) "RND_Vx__kk" (by decide) (formatXK_major _ _ _)
theorem drw (x y : Reg) (n : BitVec 4) : Statement (.drw x y n) :=
  wordWellFormed_of_row (pat := 0xD000#16) "DRW_Vx__Vy__n" (by decide) (formatXYN_major _ _ _ _)
theorem skp (x : Reg) : Statement (.skp x) :=
  wordWellFormed_of_row (pat := 0xE09E#16) "SKP_Vx" (by decide) (formatXK_minor _ _ _)
theorem sknp (x : Reg) : Statement (.sknp x) :=
  wordWellFormed_of_row (pat := 0xE0A1#16) "SKNP_Vx" (by decide) (formatXK_minor _ _ _)
theorem ldVxDT (x : Reg) : Statement (.ldVxDT x) :=
  wordWellFormed_of_row (pat := 0xF007#16) "LD_Vx__DT" (by decide) (formatXK_minor _ _ _)
theorem ldVxK (x : Reg) : Statement (.ldVxK x) :=
  wordWellFormed_of_row (pat := 0xF00A#16) "LD_Vx__K" (by decide) (formatXK_minor _ _ _)
theorem ldDTVx (x : Reg) : Statement (.ldDTVx x) :=
  wordWellFormed_of_row (pat := 0xF015#16) "LD_DT__Vx" (by decide) (formatXK_minor _ _ _)
theorem ldSTVx (x : Reg) : Statement (.ldSTVx x) :=
  wordWellFormed_of_row (pat := 0xF018#16) "LD_ST__Vx" (by decide) (formatXK_minor _ _ _)
theorem addI (x : Reg) : Statement (.addI x) :=
  wordWellFormed_of_row (pat := 0xF01E#16) "ADD_I__Vx" (by decide) (formatXK_minor _ _ _)
theorem ldF (x : Reg) : Statement (.ldF x) :=
  wordWellFormed_of_row (pat := 0xF029#16) "LD_F__Vx" (by decide) (formatXK_minor _ _ _)
theorem ldB (x : Reg) : Statement (.ldB x) :=
  wordWellFormed_of_row (pat := 0xF033#16) "LD_B__Vx" (by decide) (formatXK_minor _ _ _)
theorem storeRegs (x : Reg) : Statement (.storeRegs x) :=
  wordWellFormed_of_row (pat := 0xF055#16) "LD__I___Vx" (by decide) (formatXK_minor _ _ _)
theorem loadRegs (x : Reg) : Statement (.loadRegs x) :=
  wordWellFormed_of_row (pat := 0xF065#16) "LD_Vx___I" (by decide) (formatXK_minor _ _ _)

end Laws.Encodes

end Sys2Proof
end

