-- ==== Sys2Proof/Laws/Step.lean ====
section
/-! SUPPORT. What a step does when the CPU is next, and how a run of several steps is taken apart. -/

namespace Sys2Proof.Machine

variable {s t : State}

/-- When a CPU tick is next, the step is that tick, on the state without the event (log 1). -/
theorem step_cpu (h : s.cpuIsNext = true) : step s = cpuTick s.takeEvent :=
  step_event (e := .cpuTick) (by simpa [State.cpuIsNext] using h)

/-- The next event is the schedule's event 0. -/
theorem State.nextEvent_eq (s : State) : s.nextEvent = s.eventAt 0 := by
  unfold State.nextEvent State.eventAt
  cases ha : s.agenda with
  | cons e rest => simp
  | nil => cases hl : s.later with
    | repeats events => cases events <;> simp [Later.eventAt]
    | free n => simp [Later.eventAt]

/-- Taking an event moves every later event one place nearer. -/
theorem State.takeEvent_eventAt (s : State) (j : Nat) : s.takeEvent.eventAt j = s.eventAt (j + 1) := by
  unfold State.takeEvent State.eventAt
  cases ha : s.agenda with
  | cons e rest => simp
  | nil => cases hl : s.later with
    | free n => simp [Later.eventAt]; congr 1; omega
    | repeats events =>
      cases events with
      | nil => simp [Later.eventAt]
      | cons e es =>
        by_cases hj : j < es.length
        · simp [hj, Later.eventAt, Nat.mod_eq_of_lt (show j + 1 < es.length + 1 by omega)]
        · have hm : (j + 1) % (es.length + 1) = (j - es.length) % (es.length + 1) := by
            rw [show j + 1 = (j - es.length) + (es.length + 1) by omega, Nat.add_mod_right]
          simp [hj, Later.eventAt, hm]

/-- After a word is placed a CPU tick is next, whatever the schedule was. -/
theorem State.placeWord_cpuIsNext (s : State) (op : Word) : (s.placeWord op).cpuIsNext = true := by
  cases h : s.cpuIsNext with
  | false => simp only [State.placeWord, h]; rfl
  | true => simp only [State.placeWord, h, if_true]; exact h

/-- A CPU tick of a running core whose word at `pc` decodes (R6). -/
theorem cpuTick_run {i : Instr} (hr : s.status = .run) (hp : s.pc.toNat ≤ 0xFFE) (hd : decodeWord s.wordAtPc = .ok i) :
    cpuTick s = exec i s := by
  have hf : s.fetch = .ok s.wordAtPc := State.fetch_ok hp
  simp only [cpuTick, hr, hf, decodeAndExecute, hd]

theorem runSteps_zero (s : State) : runSteps 0 s = .next s := rfl

/-- A run whose first step answers goes on from that answer. -/
theorem runSteps_of_next (k : Nat) (h : step s = .next t) : runSteps (k + 1) s = runSteps k t := by
  rw [runSteps, h]

/-- The value `I` takes, as a number (R22). -/
theorem mask12_toNat (w : Word) : (w &&& 0x0FFF#16).toNat = w.toNat % 4096 := by
  rw [BitVec.toNat_and]; exact Nat.and_two_pow_sub_one_eq_mod w.toNat 12

/-- A count-down takes one off and stays at 0 (R174). -/
theorem countDown_toNat (b : Byte) : (countDown b).toNat = b.toNat - 1 := by revert b; decide

end Sys2Proof.Machine
end

