-- ==== Sys2Proof/Tests/Slice0.lean ====
section
/-! SUPPORT. Tests of one step each, their results taken from the spec (the vectors of 95_test_vectors.md are named by their own
numbers), and for every statement with hypotheses a concrete witness that meets them. -/

namespace Sys2Proof.Tests

open Sys2Proof.Machine

set_option maxRecDepth 20000

/-- The outcome is a next state of which `p` is true. -/
def nextSat (o : Out) (p : State → Bool) : Bool :=
  match o with
  | .next t => p t
  | .fault _ => false
  | .refused _ => false

/-- One step of the state with the word at `pc`. -/
def runs (op : Word) (s : State) (p : State → Bool) : Bool := nextSat (step (s.placeWord op)) p

/-- STATUS is the halt given. -/
def isHalt (t : State) (e : FatalError) (info : Word) : Bool := t.status == .halt e info

/-- The reset state with two registers written. -/
def regs (x : Reg) (a : Byte) (y : Reg) (b : Byte) : State := (State.reset.writeV x a).writeV y b

/-! ## Decoding: the word of every constructor, bit by bit from the table of R64 -/

theorem test_decode_exact :
    decodeWord 0b0000000011100000#16 = .ok .cls ∧ decodeWord 0b0000000011101110#16 = .ok .ret := by decide
theorem test_decode_flow :
    decodeWord 0b0001101010111100#16 = .ok (.jp 0b101010111100#12) ∧
    decodeWord 0b0010001100000001#16 = .ok (.call 0b001100000001#12) ∧
    decodeWord 0b1011111111111110#16 = .ok (.jpV0 0b111111111110#12) := by decide
theorem test_decode_skips :
    decodeWord 0b0011101001000010#16 = .ok (.seByte 0b1010#4 0b01000010#8) ∧
    decodeWord 0b0100101001000011#16 = .ok (.sneByte 0b1010#4 0b01000011#8) ∧
    decodeWord 0b0101000100100000#16 = .ok (.seReg 0b0001#4 0b0010#4) ∧
    decodeWord 0b1001001101000000#16 = .ok (.sneReg 0b0011#4 0b0100#4) := by decide
theorem test_decode_immediates :
    decodeWord 0b0110101011111111#16 = .ok (.ldByte 0b1010#4 0b11111111#8) ∧
    decodeWord 0b0111000000000001#16 = .ok (.addByte 0b0000#4 0b00000001#8) := by decide
theorem test_decode_logic :
    decodeWord 0b1000000100100000#16 = .ok (.ldReg 0b0001#4 0b0010#4) ∧
    decodeWord 0b1000001000010001#16 = .ok (.orReg 0b0010#4 0b0001#4) ∧
    decodeWord 0b1000000101000010#16 = .ok (.andReg 0b0001#4 0b0100#4) ∧
    decodeWord 0b1000010000010011#16 = .ok (.xorReg 0b0100#4 0b0001#4) := by decide
theorem test_decode_arithmetic :
    decodeWord 0b1000111100010100#16 = .ok (.addReg 0b1111#4 0b0001#4) ∧
    decodeWord 0b1000000011110101#16 = .ok (.sub 0b0000#4 0b1111#4) ∧
    decodeWord 0b1000000110000110#16 = .ok (.shr 0b0001#4 0b1000#4) ∧
    decodeWord 0b1000100000010111#16 = .ok (.subn 0b1000#4 0b0001#4) ∧
    decodeWord 0b1000011000011110#16 = .ok (.shl 0b0110#4 0b0001#4) := by decide
theorem test_decode_index :
    decodeWord 0b1010001100000000#16 = .ok (.ldI 0b001100000000#12) ∧
    decodeWord 0b1111010100011110#16 = .ok (.addI 0b0101#4) ∧
    decodeWord 0b1111101000101001#16 = .ok (.ldF 0b1010#4) ∧
    decodeWord 0b1111110000110011#16 = .ok (.ldB 0b1100#4) ∧
    decodeWord 0b1111001101010101#16 = .ok (.storeRegs 0b0011#4) ∧
    decodeWord 0b1111010001100101#16 = .ok (.loadRegs 0b0100#4) := by decide
theorem test_decode_display_keys_random :
    decodeWord 0b1101000100100111#16 = .ok (.drw 0b0001#4 0b0010#4 0b0111#4) ∧
    decodeWord 0b1110001010011110#16 = .ok (.skp 0b0010#4) ∧
    decodeWord 0b1110010010100001#16 = .ok (.sknp 0b0100#4) ∧
    decodeWord 0b1100000000001111#16 = .ok (.rnd 0b0000#4 0b00001111#8) := by decide
theorem test_decode_timers :
    decodeWord 0b1111001100000111#16 = .ok (.ldVxDT 0b0011#4) ∧
    decodeWord 0b1111001000001010#16 = .ok (.ldVxK 0b0010#4) ∧
    decodeWord 0b1111000000010101#16 = .ok (.ldDTVx 0b0000#4) ∧
    decodeWord 0b1111000100011000#16 = .ok (.ldSTVx 0b0001#4) := by decide
theorem test_decode_bytes : decodeBytes [0x12#8, 0x34#8, 0xAB#8] = .ok (.jp 0x234, [0xAB#8]) := by decide
theorem test_decode_too_short : decodeBytes [0x12#8] = .error .tooShort := by decide
theorem test_decode_table_word :
    decodeTableWord 16 0xD127 = some (.drw 1 2 7) ∧ decodeTableWord 16 0x5121 = none := by decide

/-! ## What is not well-formed: one word of each class of R65, refused by the check and by the decoder -/

theorem test_ill_formed_0nnn : wordWellFormed 0x00E1 = false ∧ decodeWord 0x00E1 = .error (.unknownOpcode 0x00E1) := by decide
theorem test_ill_formed_5xyN : wordWellFormed 0x5121 = false ∧ decodeWord 0x5121 = .error (.unknownOpcode 0x5121) := by decide
theorem test_ill_formed_8xyN : wordWellFormed 0x8008 = false ∧ decodeWord 0x8008 = .error (.unknownOpcode 0x8008) := by decide
theorem test_ill_formed_8xyF : wordWellFormed 0x800F = false ∧ decodeWord 0x800F = .error (.unknownOpcode 0x800F) := by decide
theorem test_ill_formed_9xyN : wordWellFormed 0x9121 = false ∧ decodeWord 0x9121 = .error (.unknownOpcode 0x9121) := by decide
theorem test_ill_formed_Exkk : wordWellFormed 0xE29F = false ∧ decodeWord 0xE29F = .error (.unknownOpcode 0xE29F) := by decide
theorem test_ill_formed_Fxkk : wordWellFormed 0xF2FF = false ∧ decodeWord 0xF2FF = .error (.unknownOpcode 0xF2FF) := by decide
theorem test_ill_formed_image : imageWellFormed (List.replicate 3585 0#8) = false := by
  simp only [imageWellFormed, List.length_replicate]; decide
theorem test_well_formed_image : imageWellFormed (List.replicate 3584 0#8) = true := by
  simp only [imageWellFormed, List.length_replicate]; decide
theorem test_table_has_34_rows : opcodeTable.length = 34 := by decide

/-! ## Fetch and the placing of a word -/

/-- F1: big-endian. -/
theorem test_fetch_big_endian :
    nextSat (step ((State.reset.writeByte 0x200 0x12).writeByte 0x201 0x34)) (fun t => t.pc == 0x234) = true := by decide
/-- F2: the last instruction of memory executes. -/
theorem test_fetch_last_word :
    runs 0x6012 (State.reset.writePc 0xFFE) (fun t => t.readV 0 == 0x12 && t.pc == 0x1000) = true := by decide
/-- F3. -/
theorem test_fetch_second_byte_outside :
    nextSat (step (State.reset.writePc 0xFFF)) (fun t => isHalt t .addressOutOfRange 0x1000 && t.pc == 0xFFF) = true := by decide
/-- F4, second tick: `info` is `pc` itself. -/
theorem test_fetch_outside :
    nextSat (step (State.reset.writePc 0x1002)) (fun t => isHalt t .addressOutOfRange 0x1002) = true := by decide
/-- F7, L4, P5c: the reset state's first step. -/
theorem test_empty_memory_is_unknown :
    nextSat (step State.reset) (fun t => isHalt t .unknownOpcode 0x0000 && t.pc == 0x200) = true := by decide
/-- F14. -/
theorem test_halted_core_ignores_tick :
    step { State.reset with status := .halt .unknownOpcode 0 } =
      .next { State.reset with status := .halt .unknownOpcode 0 } := by rfl
theorem test_with_fetch_word :
    nextSat (step (State.reset.withFetchWord 16 0x6AFF)) (fun t => t.readV 0xA == 0xFF && t.pc == 0x202) = true := by decide
theorem test_default_font :
    (List.range 5).map State.reset.readByte = [0xF0#8, 0x90#8, 0x90#8, 0x90#8, 0xF0#8] ∧
    State.reset.readByte 0x04F = 0x80#8 ∧ State.reset.readByte 0x050 = 0x00#8 := by decide

/-! ## Jumps, call, return -/

/-- J1. -/
theorem test_jp : runs 0x1ABC State.reset (fun t => t.pc == 0xABC) = true := by decide
/-- J3: the call's own address is saved. -/
theorem test_call_saves_own_pc :
    runs 0x2300 State.reset (fun t => t.stack[0] == 0x200 && t.sp == 1 && t.pc == 0x300) = true := by decide
/-- J4. -/
theorem test_call_overflow :
    runs 0x2300 { State.reset with sp := 16 } (fun t => isHalt t .stackOverflow 0x200 && t.sp == 16 && t.pc == 0x200) = true := by
  decide
/-- J5. -/
theorem test_ret :
    runs 0x00EE { State.reset with pc := 0x20C, sp := 1, stack := State.reset.stack.set 0 0x204 }
      (fun t => t.pc == 0x206 && t.sp == 0) = true := by decide
/-- J6. -/
theorem test_ret_underflow :
    runs 0x00EE (State.reset.writePc 0x20C) (fun t => isHalt t .stackUnderflow 0x20C && t.pc == 0x20C) = true := by decide
/-- J9: not truncated. -/
theorem test_jpV0_not_truncated : runs 0xBFFF (State.reset.writeV 0 0xFF) (fun t => t.pc == 0x10FE) = true := by decide
/-- J11: `V[1]` is not used. -/
theorem test_jpV0_uses_V0 : runs 0xB1FF (State.reset.writeV 1 0x44) (fun t => t.pc == 0x1FF) = true := by decide

/-! ## Skips -/

/-- K1. -/
theorem test_seByte_skips : runs 0x3A42 (State.reset.writeV 0xA 0x42) (fun t => t.pc == 0x204) = true := by decide
/-- K2. -/
theorem test_seByte_does_not_skip : runs 0x3A42 (State.reset.writeV 0xA 0x43) (fun t => t.pc == 0x202) = true := by decide
/-- K3. -/
theorem test_sneByte_does_not_skip : runs 0x4A42 (State.reset.writeV 0xA 0x42) (fun t => t.pc == 0x202) = true := by decide
/-- K4. -/
theorem test_sneByte_skips : runs 0x4A42 (State.reset.writeV 0xA 0x43) (fun t => t.pc == 0x204) = true := by decide
/-- K5. -/
theorem test_seReg_skips : runs 0x5120 (regs 1 7 2 7) (fun t => t.pc == 0x204) = true := by decide
/-- K6. -/
theorem test_seReg_does_not_skip : runs 0x5120 (regs 1 7 2 8) (fun t => t.pc == 0x202) = true := by decide
/-- K8. -/
theorem test_sneReg_skips : runs 0x9120 (regs 1 7 2 8) (fun t => t.pc == 0x204) = true := by decide
/-- K10. -/
theorem test_sneReg_same_register : runs 0x9330 (State.reset.writeV 3 9) (fun t => t.pc == 0x202) = true := by decide

/-! ## Immediates -/

/-- M1. -/
theorem test_ldByte : runs 0x6AFF State.reset (fun t => t.readV 0xA == 0xFF && t.pc == 0x202) = true := by decide
/-- M2. -/
theorem test_ldByte_VF : runs 0x6F07 State.reset (fun t => t.readV VF == 0x07) = true := by decide
/-- S1, M3. -/
theorem test_addByte_keeps_VF :
    runs 0x7001 (regs 0 0xFF VF 1) (fun t => t.readV 0 == 0x00 && t.readV VF == 1 && t.pc == 0x202) = true := by decide
/-- M5. -/
theorem test_addByte_VF : runs 0x7F01 (State.reset.writeV VF 0xFF) (fun t => t.readV VF == 0x00) = true := by decide

/-! ## Arithmetic and logic -/

/-- A1. -/
theorem test_ldReg : runs 0x8120 (regs 1 0x01 2 0xAB) (fun t => t.readV 1 == 0xAB && t.readV 2 == 0xAB) = true := by decide
/-- A2. -/
theorem test_orReg : runs 0x8011 ((regs 0 0xF0 1 0x0F).writeV VF 7) (fun t => t.readV 0 == 0xFF && t.readV VF == 7) = true := by
  decide
/-- A3. -/
theorem test_andReg : runs 0x8012 ((regs 0 0xF0 1 0x3C).writeV VF 7) (fun t => t.readV 0 == 0x30 && t.readV VF == 7) = true := by
  decide
/-- A4. -/
theorem test_xorReg : runs 0x8013 ((regs 0 0xF0 1 0x3C).writeV VF 7) (fun t => t.readV 0 == 0xCC && t.readV VF == 7) = true := by
  decide
/-- S2. -/
theorem test_addReg_carry : runs 0x8014 (regs 0 0xFF 1 0x02) (fun t => t.readV 0 == 0x01 && t.readV VF == 1) = true := by decide
/-- A9: the sum overwrites the carry. -/
theorem test_addReg_VF : runs 0x8F14 (regs VF 0x01 1 0xFF) (fun t => t.readV VF == 0x00) = true := by decide
/-- S3. -/
theorem test_sub_borrow : runs 0x8015 (regs 0 0x01 1 0x02) (fun t => t.readV 0 == 0xFF && t.readV VF == 0) = true := by decide
/-- A15: the subtraction reads VF after it is written. -/
theorem test_sub_VF : runs 0x8F15 (regs VF 5 1 3) (fun t => t.readV VF == 0xFE) = true := by decide
/-- S4, A18: `y` is ignored. -/
theorem test_shr : runs 0x8016 (regs 0 0x81 1 0xFF) (fun t => t.readV 0 == 0x40 && t.readV VF == 1 && t.readV 1 == 0xFF) = true := by
  decide
/-- A19. -/
theorem test_shr_VF : runs 0x8F06 (State.reset.writeV VF 3) (fun t => t.readV VF == 0) = true := by decide
/-- A22. -/
theorem test_subn_borrow : runs 0x8017 (regs 0 3 1 1) (fun t => t.readV 0 == 0xFE && t.readV VF == 0) = true := by decide
/-- A25. -/
theorem test_subn_from_VF : runs 0x80F7 (regs 0 2 VF 7) (fun t => t.readV 0 == 0xFF && t.readV VF == 1) = true := by decide
/-- A27. -/
theorem test_shl : runs 0x800E (State.reset.writeV 0 0x81) (fun t => t.readV 0 == 0x02 && t.readV VF == 1) = true := by decide
/-- A30. -/
theorem test_shl_VF : runs 0x8F0E (State.reset.writeV VF 0x80) (fun t => t.readV VF == 0x02) = true := by decide

/-! ## Index register and memory -/

/-- X2. -/
theorem test_ldI : runs 0xAFFF State.reset (fun t => t.i == 0xFFF && t.pc == 0x202) = true := by decide
/-- X5: `x = 0xF`, the old VF is added. -/
theorem test_addI_VF :
    runs 0xFF1E ((State.reset.writeI 0xFFE).writeV VF 0x05) (fun t => t.i == 0x003 && t.readV VF == 1) = true := by decide
/-- X6: VF is always written. -/
theorem test_addI_clears_VF :
    runs 0xF01E ((State.reset.writeI 0x123).writeV VF 1) (fun t => t.i == 0x123 && t.readV VF == 0) = true := by decide
/-- X9: no nibble mask. -/
theorem test_ldF : runs 0xF029 (State.reset.writeV 0 0xFF) (fun t => t.i == 0x4FB) = true := by decide
/-- X14. -/
theorem test_ldB_top :
    runs 0xF033 ((State.reset.writeI 0xFFD).writeV 0 123)
      (fun t => t.readByte 0xFFD == 1 && t.readByte 0xFFE == 2 && t.readByte 0xFFF == 3 && t.pc == 0x202) = true := by decide
/-- X15. -/
theorem test_ldB_out_of_range :
    runs 0xF033 ((State.reset.writeI 0xFFE).writeV 0 123)
      (fun t => isHalt t .addressOutOfRange 0x1000 && t.readByte 0xFFE == 0 && t.pc == 0x200) = true := by decide
/-- X22. -/
theorem test_storeRegs :
    runs 0xF155 ((regs 0 0x12 1 0x02).writeI 0x202)
      (fun t => t.readByte 0x202 == 0x12 && t.readByte 0x203 == 0x02 && t.i == 0x202) = true := by decide
/-- X18. -/
theorem test_storeRegs_top :
    runs 0xF055 ((State.reset.writeI 0xFFF).writeV 0 0x77) (fun t => t.readByte 0xFFF == 0x77 && t.i == 0xFFF) = true := by decide
/-- X19. -/
theorem test_loadRegs :
    runs 0xF165 (((State.reset.writeByte 0xFFE 0x12).writeByte 0xFFF 0x34).writeI 0xFFE |>.writeV 2 0xCC)
      (fun t => t.readV 0 == 0x12 && t.readV 1 == 0x34 && t.readV 2 == 0xCC && t.i == 0xFFE) = true := by decide
/-- X20. -/
theorem test_loadRegs_out_of_range :
    runs 0xF165 ((regs 0 0xAA 1 0xBB).writeI 0xFFF)
      (fun t => isHalt t .addressOutOfRange 0x1000 && t.readV 0 == 0xAA && t.readV 1 == 0xBB) = true := by decide

/-! ## Display -/

/-- The framebuffer with the listed pixels set and the others clear. -/
def pixels (ps : List (Fin 64 × Fin 32)) : Framebuffer := ps.foldl (fun fb p => fbToggle fb p.1 p.2) fbBlank

/-- A pixel is set. -/
def lit (t : State) (X : Fin 64) (Y : Fin 32) : Bool := fbGet t.fb X Y

/-- G1. -/
theorem test_cls :
    runs 0x00E0 { State.reset with fb := pixels [(0, 0), (63, 31)] }
      (fun t => !lit t 0 0 && !lit t 63 31 && t.pc == 0x202) = true := by decide
/-- G6: the start is reduced modulo 64 and 32, then each pixel wraps. -/
theorem test_drw_wraps :
    runs 0xD011 (((regs 0 0x7E 1 0x21).writeI 0x300).writeByte 0x300 0xFF)
      (fun t => !lit t 61 1 && lit t 62 1 && lit t 63 1 && lit t 0 1 && lit t 5 1 && !lit t 6 1 && !lit t 62 2 && t.readV VF == 0) = true := by
  decide
/-- G7: a collision clears the pixel and sets VF. -/
theorem test_drw_collides :
    runs 0xD011 { (State.reset.writeI 0x300).writeByte 0x300 0xC0 with fb := pixels [(1, 0), (5, 5)] }
      (fun t => lit t 0 0 && !lit t 1 0 && lit t 5 5 && t.readV VF == 1) = true := by decide

/-! ## Keypad, timers, random -/

/-- The reset state with one key pressed. -/
def pressed (k : Fin 16) : State := setKey k true State.reset

/-- I3: the key number is the low 4 bits. -/
theorem test_skp : runs 0xE29E ((pressed 5).writeV 2 0x15) (fun t => t.pc == 0x204) = true := by decide
/-- I2. -/
theorem test_skp_not_pressed : runs 0xE29E (State.reset.writeV 2 5) (fun t => t.pc == 0x202) = true := by decide
/-- I4. -/
theorem test_sknp_pressed : runs 0xE2A1 ((pressed 5).writeV 2 5) (fun t => t.pc == 0x202) = true := by decide
/-- I5. -/
theorem test_sknp : runs 0xE2A1 (State.reset.writeV 2 5) (fun t => t.pc == 0x204) = true := by decide
/-- I6. -/
theorem test_ldVxK_waits : step (State.reset.placeWord 0xF20A) = .next (State.reset.placeWord 0xF20A) := by rfl
/-- I7. -/
theorem test_ldVxK : runs 0xF20A (pressed 7) (fun t => t.readV 2 == 0x07 && t.pc == 0x202) = true := by decide
/-- I10. -/
theorem test_ldVxDT : runs 0xF307 (State.reset.writeDT 0x2A) (fun t => t.readV 3 == 0x2A && t.dt == 0x2A) = true := by decide
/-- I11. -/
theorem test_ldDTVx : runs 0xF015 (State.reset.writeV 0 3) (fun t => t.dt == 3 && t.st == 0) = true := by decide
/-- I12. -/
theorem test_ldSTVx : runs 0xF118 (State.reset.writeV 1 2) (fun t => t.st == 2 && t.dt == 0 && t.soundExpired == 0) = true := by
  decide
/-- I13. -/
theorem test_rnd : runs 0xC00F { State.reset with rand := [0xA7] } (fun t => t.readV 0 == 0x07 && t.rand == []) = true := by decide
/-- I15. -/
theorem test_rnd_VF : runs 0xCFFF { State.reset with rand := [0x3C, 0x01] } (fun t => t.readV VF == 0x3C && t.rand == [0x01]) = true := by
  decide
/-- T1. -/
theorem test_timer_tick_expires :
    nextSat (step { (State.reset.writeDT 2).writeST 1 with agenda := [.timerTick] })
      (fun t => t.dt == 1 && t.st == 0 && t.soundExpired == 1) = true := by decide
/-- T3: at 0 the timers stay, with no event. -/
theorem test_timer_tick_at_zero :
    nextSat (step { State.reset with agenda := [.timerTick] }) (fun t => t == State.reset) = true := by decide
/-- T5: in `HALT` too. -/
theorem test_timer_tick_halted :
    nextSat (step { State.reset.writeDT 4 with status := .halt .unknownOpcode 0, agenda := [.timerTick] })
      (fun t => t.dt == 3 && isHalt t .unknownOpcode 0) = true := by decide

/-! ## Load -/

/-- L3: `Load` of the two bytes 0x12, 0x00 over a used state leaves nothing of it. -/
theorem test_load_two_bytes :
    nextSat (step { (regs 0 9 VF 1).writeByte 0x204 0x55 with sp := 3, fb := pixels [(7, 7)], agenda := [.load [0x12, 0x00]] })
      (fun t => t == State.reset.writeByte 0x200 0x12) = true := by decide
/-- L2: a longer image than `MAX_IMAGE` is refused with its length. -/
theorem test_load_too_long (s : State) : (load (List.replicate 3585 0x12) s).status = .halt .imageTooLarge 3585 := by
  simp only [load, List.length_replicate]; rfl
/-- L5: the length is saturated. -/
theorem test_load_length_saturates (s : State) : (load (List.replicate 70000 0) s).status = .halt .imageTooLarge 0xFFFF := by
  simp only [load, List.length_replicate]; rfl

/-! ## Witnesses: states and operands that meet the hypotheses of the statements, at the ends of their ranges -/

theorem test_witness_EncodeOfDecodeIsTheWord : decodeWord 0x8126 = .ok (.shr 1 2) := by decide
theorem test_witness_DecoderAcceptsExactlyTheTableWords :
    wordWellFormed 0xFF65 = true ∧ wordWellFormed 0x00E0 = true ∧ wordWellFormed 0x0000 = false ∧ wordWellFormed 0xFFFF = false := by
  decide
theorem test_witness_FetchReadsTheBigEndianWordAtPc :
    (State.reset.writePc 0xFFE).pc.toNat ≤ 0xFFE ∧ (State.reset.writePc 0xFFF).pc.toNat = 0xFFF ∧
    0xFFF < (State.reset.writePc 0x1000).pc.toNat := by decide
theorem test_witness_StepRunsTheDecodedInstruction :
    ((State.reset.writePc 0xFFE).placeWord 0x1200).CpuReady ∧ ((State.reset.writePc 0xFFE).placeWord 0x1200).pc.toNat ≤ 0xFFE ∧
    decodeWord ((State.reset.writePc 0xFFE).placeWord 0x1200).wordAtPc = .ok (.jp 0x200) := ⟨⟨rfl, rfl⟩, by decide, by decide⟩
theorem test_witness_FetchOutsideMemoryHalts :
    (State.reset.writePc 0xFFF).CpuReady ∧ 0xFFE < (State.reset.writePc 0xFFF).pc.toNat ∧
    (State.reset.writePc 0x10FE).CpuReady ∧ 0xFFE < (State.reset.writePc 0x10FE).pc.toNat :=
  ⟨⟨rfl, rfl⟩, by decide, ⟨rfl, rfl⟩, by decide⟩
theorem test_witness_UnknownWordHalts :
    (State.reset.writePc 0xFFE).CpuReady ∧ (State.reset.writePc 0xFFE).pc.toNat ≤ 0xFFE ∧
    wordWellFormed (State.reset.writePc 0xFFE).wordAtPc = false := ⟨⟨rfl, rfl⟩, by decide, by decide⟩

/-- A halted state. -/
def halted : State := { State.reset with status := .halt .unknownOpcode 0x0000 }

theorem test_witness_HaltedCoreIgnoresCpuTicks :
    halted.Halted ∧ halted.cpuIsNext = true ∧ { halted with agenda := [.cpuTick, .timerTick] }.cpuIsNext = true :=
  ⟨⟨_, _, rfl⟩, rfl, rfl⟩
theorem test_witness_OnlyALoadLeavesTheHaltedState :
    { halted with agenda := [.load []] }.Halted ∧ step { halted with agenda := [.load []] } = .next State.reset ∧
    State.reset.status ≠ { halted with agenda := [.load []] }.status := ⟨⟨_, _, rfl⟩, rfl, by decide⟩
theorem test_witness_AnInstructionThatHaltsChangesStatusAlone :
    exec .ret State.reset = .next { State.reset with status := .halt .stackUnderflow 0x200 } ∧
    { State.reset with status := .halt .stackUnderflow 0x200 }.status ≠ State.reset.status := ⟨rfl, by decide⟩
theorem test_witness_InstructionsWriteOnlyWhatTheirRuleLists :
    exec (.jp 0x300) State.reset = .next (State.reset.writePc 0x300) := rfl

/-- Every bound of the invariant met exactly, and a listed byte. -/
def atTheBounds : State :=
  { State.reset.writeByte 0xFFF 0x01 with pc := 0x10FE, i := 0xFFF, sp := 16, stack := Vector.replicate 16 0xFFE }

theorem test_witness_inv : atTheBounds.Inv where
  memCanonical := rfl
  indexIs12Bits := by unfold State.IndexIs12Bits; decide
  pcBounded := by unfold State.PcBounded; decide
  stackHoldsFetchAddresses := by unfold State.StackHoldsFetchAddresses; decide

theorem test_witness_EveryStepKeepsTheInvariant :
    atTheBounds.Inv ∧ step atTheBounds = .next { atTheBounds with status := .halt .addressOutOfRange 0x10FE } :=
  ⟨test_witness_inv, rfl⟩
theorem test_witness_EveryStepKeepsTheHaltRecordTrue :
    atTheBounds.Inv ∧ atTheBounds.HaltRecordTrue ∧
    { atTheBounds with status := .halt .addressOutOfRange 0x10FE }.HaltRecordTrue ∧
    { atTheBounds with status := .halt .stackOverflow 0x10FE }.HaltRecordTrue ∧
    { State.reset with status := .halt .stackUnderflow 0x200 }.HaltRecordTrue ∧
    { State.reset with status := .halt .imageTooLarge 3585 }.HaltRecordTrue ∧
    { State.reset with status := .halt .unknownOpcode 0x5121 }.HaltRecordTrue := by
  refine ⟨test_witness_inv, trivial, ?_, ?_, ?_, ?_, ?_⟩ <;> simp only [State.HaltRecordTrue] <;> decide

theorem test_witness_JumpSetsPc : (0x200#12).toNat = State.reset.pc.toNat ∧ (0xFFF#12) = 0xFFF := by decide
theorem test_witness_CallPushesItsOwnAddress : { State.reset with sp := 15 }.sp.val < 16 := by decide
theorem test_witness_ReturnContinuesAfterTheCall :
    { State.reset with sp := 1 }.sp.val = (0 : Fin 16).val + 1 ∧ { State.reset with sp := 16 }.sp.val = (15 : Fin 16).val + 1 := by
  decide
theorem test_witness_StackErrorsHalt : { State.reset with sp := 16 }.sp.val = 16 ∧ State.reset.sp.val = 0 := by decide
theorem test_witness_ReturnUndoesCall :
    { State.reset with sp := 15 }.sp.val < 16 ∧
    exec (.call 0x300) { State.reset with sp := 15 } =
      .next { State.reset with sp := 16, stack := State.reset.stack.set 15 0x200, pc := 0x300 } := ⟨by decide, rfl⟩
theorem test_witness_SkipsOnAnImmediate :
    ((State.reset.writePc 0xFFE).readV 0).toNat = (0#8).toNat ∧ (State.reset.writePc 0xFFE).pc = 0xFFE ∧
    ((State.reset.writePc 0xFFE).readV 0).toNat ≠ (0xFF#8).toNat := by decide
theorem test_witness_SkipsOnTwoRegisters :
    ((regs 1 7 2 7).readV 1).toNat = ((regs 1 7 2 7).readV 2).toNat ∧
    ((regs 1 7 2 8).readV 1).toNat ≠ ((regs 1 7 2 8).readV 2).toNat ∧ (0x1#4) ≠ 0 ∧ (0xF#4) ≠ 0 := by decide
theorem test_witness_SkipsOnAKey :
    (5 : Fin 16).val = (((pressed 5).writeV 2 0x15).readV 2).toNat % 16 ∧ ((pressed 5).writeV 2 0x15).keyPressed 5 = true ∧
    (5 : Fin 16).val = ((State.reset.writeV 2 0x15).readV 2).toNat % 16 ∧ (State.reset.writeV 2 0x15).keyPressed 5 = false := by decide
theorem test_witness_AddImmediateIsModulo256AndWritesNoFlag : (0 : Reg) ≠ VF ∧ (0#8) = 0 := by decide
theorem test_witness_CopyAndLogicWriteVxOnly : (VF : Reg) = VF ∧ (0 : Reg) = 0 := by decide
theorem test_witness_AddWritesSumAndCarry :
    (0 : Reg) ≠ VF ∧ ((regs 0 0xFF 1 0x01).readV 0).toNat + ((regs 0 0xFF 1 0x01).readV 1).toNat > 255 ∧
    ((regs 0 0xFE 1 0x01).readV 0).toNat + ((regs 0 0xFE 1 0x01).readV 1).toNat ≤ 255 := by decide
/-- The clauses of the subtractions: `f` is 0 and 1; `x` and `y` are VF or not. -/
theorem test_witness_SubtractWritesDifferenceAndNotBorrow :
    (3 : Nat) = ((regs 0 3 1 4).readV 0).toNat ∧ (4 : Nat) = ((regs 0 3 1 4).readV 1).toNat ∧ (0 : Nat) = (if 3 < 4 then 0 else 1) ∧
    (4 : Nat) = ((regs 0 4 1 4).readV 0).toNat ∧ (4 : Nat) = ((regs 0 4 1 4).readV 1).toNat ∧ (1 : Nat) = (if 4 < 4 then 0 else 1) ∧
    (0 : Reg) ≠ VF ∧ (1 : Reg) ≠ VF ∧ (0xF : Reg) = VF := by decide
theorem test_witness_ReverseSubtractWritesDifferenceAndNotBorrow :
    (4 : Nat) = ((regs 0 4 1 3).readV 0).toNat ∧ (3 : Nat) = ((regs 0 4 1 3).readV 1).toNat ∧ (0 : Nat) = (if 3 < 4 then 0 else 1) ∧
    (4 : Nat) = ((regs 0 4 1 4).readV 0).toNat ∧ (4 : Nat) = ((regs 0 4 1 4).readV 1).toNat ∧ (1 : Nat) = (if 4 < 4 then 0 else 1) ∧
    (0 : Reg) ≠ VF ∧ (1 : Reg) ≠ VF ∧ (0xF : Reg) = VF := by decide
theorem test_witness_ShiftRightHalvesVx : (0 : Reg) ≠ VF ∧ (0xF : Reg) = VF := by decide
theorem test_witness_ShiftLeftDoublesVx : (0xE : Reg) ≠ VF ∧ (0xF : Reg) = VF := by decide
theorem test_witness_AddToIndexMasksAndFlagsOverflow :
    ((State.reset.writeI 0xFFF).writeV 0 1).i.toNat + (((State.reset.writeI 0xFFF).writeV 0 1).readV 0).toNat > 0xFFF ∧
    ((State.reset.writeI 0xFFE).writeV 0 1).i.toNat + (((State.reset.writeI 0xFFE).writeV 0 1).readV 0).toNat ≤ 0xFFF := by decide
theorem test_witness_BcdStoresThreeDigits :
    (State.reset.writeI 0xFFD).MemCanonical ∧ (State.reset.writeI 0xFFD).i.toNat + 2 ≤ 0xFFF := ⟨rfl, by decide⟩
theorem test_witness_StoreRegistersCopiesV0ToVx :
    (State.reset.writeI 0xFF0).MemCanonical ∧ (State.reset.writeI 0xFF0).i.toNat + (0xF : Reg).toNat ≤ 0xFFF := ⟨rfl, by decide⟩
theorem test_witness_LoadRegistersCopiesMemory :
    (State.reset.writeI 0xFF0).i.toNat + (0xF : Reg).toNat ≤ 0xFFF ∧ (0 : Reg).toNat ≤ (0xF : Reg).toNat := by decide
theorem test_witness_DataOutOfRangeHaltsBeforeAnyWrite :
    (State.reset.writeI 0xFFE).i.toNat + 2 > 0xFFF ∧ (State.reset.writeI 0xFF1).i.toNat + (0xF : Reg).toNat > 0xFFF ∧
    (2#4).toNat ≥ 1 ∧ (State.reset.writeI 0xFFF).i.toNat + (2#4).toNat - 1 > 0xFFF := by decide

/-- X22's start: a store over the next instruction. -/
def storesOverNext : State := (regs 0 0x12 1 0x02).writeI 0x202

theorem test_witness_StoredRegistersAreFetchedNext :
    storesOverNext.MemCanonical ∧ 1 ≤ (1 : Reg).toNat ∧ storesOverNext.i.toNat + (1 : Reg).toNat ≤ 0xFFF ∧
    storesOverNext.pc.toNat + 2 = storesOverNext.i.toNat ∧
    exec (.storeRegs 1) storesOverNext = .next (storesOverNext.storeBlock 2).advance :=
  ⟨rfl, by decide, by decide, by decide, rfl⟩

/-- G4's start: the last legal sprite byte, one pixel at the origin. -/
def lastSpriteByte : State := (State.reset.writeI 0xFFF).writeByte 0xFFF 0x80

theorem test_witness_sprite : SpriteSet lastSpriteByte 0 0 1 0 0 :=
  ⟨0, 0, by decide, by decide, by decide, by decide, by decide⟩

theorem test_witness_DrawInvertsTheSpriteAndReportsCollision :
    ((1#4) = 0 ∨ lastSpriteByte.i.toNat + (1#4).toNat - 1 ≤ 0xFFF) ∧
    (∃ X Y, SpriteSet { lastSpriteByte with fb := pixels [(0, 0)] } 0 0 1 X Y ∧
      fbGet { lastSpriteByte with fb := pixels [(0, 0)] }.fb X Y = true) ∧
    (∀ X Y, SpriteSet lastSpriteByte 0 0 1 X Y → fbGet lastSpriteByte.fb X Y = false) :=
  ⟨.inr (by decide), ⟨0, 0, test_witness_sprite, by decide⟩, fun X Y _ => by
    change fbGet fbBlank X Y = false; simp [fbGet, fbBlank]⟩
/-- `n = 0` with `I` at the top: no check, no pixel. -/
theorem test_witness_draw_no_rows : (0#4) = 0 ∨ lastSpriteByte.i.toNat + (0#4).toNat - 1 ≤ 0xFFF := .inl rfl
theorem test_witness_DrawingTwiceRestoresTheScreen :
    (0 : Reg) ≠ VF ∧ ((1#4) = 0 ∨ lastSpriteByte.i.toNat + (1#4).toNat - 1 ≤ 0xFFF) ∧
    nextSat (exec (.drw 0 0 1) lastSpriteByte) (fun t => lit t 0 0 && t.readV VF == 0) = true ∧
    (∀ X Y, SpriteSet lastSpriteByte 0 0 1 X Y → fbGet lastSpriteByte.fb X Y = false) ∧
    (∃ X Y, SpriteSet lastSpriteByte 0 0 1 X Y) :=
  ⟨by decide, .inr (by decide), by decide, fun X Y _ => by change fbGet fbBlank X Y = false; simp [fbGet, fbBlank],
    ⟨0, 0, test_witness_sprite⟩⟩

/-- I8's start: two keys pressed. -/
def twoKeys : State := setKey 9 true (pressed 3)

theorem test_witness_WaitForKeyReportsAPressedKey :
    (∀ k, State.reset.keyPressed k = false) ∧ (∃ k, twoKeys.keyPressed k = true) := ⟨by decide, ⟨9, by decide⟩⟩
/-- I8: the key reported is 3 or 9, and nothing says which. -/
theorem test_ldVxK_two_keys (k : Fin 16) (h : keySelect twoKeys.pressedKeys = some k) : k = 3 ∨ k = 9 := by
  have := (State.mem_pressedKeys k).mp (keySelect_mem h)
  clear h
  revert k; decide
theorem test_witness_RandomByteIsDrawnUnderTheMask :
    { State.reset with rand := [0xA7] }.rand = 0xA7 :: [] ∧ State.reset.rand = [] ∧ (0x0F#8).getLsbD 7 = false := by decide

/-- T4's start: five timer ticks, then CPU ticks. -/
def fiveTicks (st : Byte) : State := { State.reset.writeST st with agenda := List.replicate 5 .timerTick }

/-- `ST` at each end of each clause; and a schedule of timer ticks alone, for ever. -/
theorem test_witness_TimersCountDownToZeroAndExpireOnce :
    (∀ j, j < 5 → (fiveTicks 3).eventAt j = some .timerTick) ∧
    (1 ≤ (fiveTicks 1).st.toNat ∧ (fiveTicks 5).st.toNat ≤ 5) ∧ (fiveTicks 0).st.toNat = 0 ∧ 5 < (fiveTicks 6).st.toNat := by decide
theorem test_witness_timer_ticks_for_ever (k : Nat) :
    ∀ j, j < k → { State.reset with later := .repeats [.timerTick] }.eventAt j = some .timerTick := by
  intro j _; simp [State.eventAt, Later.eventAt, State.reset, Nat.mod_one]
theorem test_witness_HostInputsChangeOnlyTheirInput :
    { State.reset with agenda := [.setKey 15 true] }.nextEvent = some (.setKey 15 true) ∧
    { State.reset with later := .repeats [.supplyByte 0xFF] }.nextEvent = some (.supplyByte 0xFF) := by decide
theorem test_witness_LoadRebuildsTheWholeState :
    { halted with agenda := [.load (List.replicate 3584 0x12)] }.nextEvent = some (.load (List.replicate 3584 0x12)) ∧
    (List.replicate 3584 (0x12 : Byte)).length ≤ 3584 := ⟨rfl, by rw [List.length_replicate]⟩
/-- An image of two bytes: the first byte of the zero fill is at 0x202 and the last at 0xFFF; the gap below the image is 0x050 to
0x1FF. -/
theorem test_witness_LoadRebuildsTheWholeState_short_image :
    { halted with agenda := [.load [0x12, 0x00]] }.nextEvent = some (.load [0x12, 0x00]) ∧ [0x12#8, 0x00#8].length ≤ 3584 ∧
    0x200 + [0x12#8, 0x00#8].length ≤ 0x202 ∧ (0x202 : Nat) ≤ 0xFFF ∧
    nextSat (step { (halted.writeByte 0x202 0x55).writeByte 0xFFF 0x66 with agenda := [.load [0x12, 0x00]] })
      (fun t => t.readByte 0x04F == 0x80 && t.readByte 0x050 == 0 && t.readByte 0x1FF == 0 && t.readByte 0x200 == 0x12 &&
        t.readByte 0x202 == 0 && t.readByte 0xFFF == 0) = true := by decide
theorem test_witness_TooLongImageIsRefused :
    { halted with agenda := [.load (List.replicate 3585 0x12)] }.nextEvent = some (.load (List.replicate 3585 0x12)) ∧
    3584 < (List.replicate 3585 (0x12 : Byte)).length := ⟨rfl, by rw [List.length_replicate]; decide⟩
theorem test_witness_LoadLeavesNoResidue :
    halted ≠ atTheBounds ∧ halted.font = atTheBounds.font ∧ halted.keys = atTheBounds.keys ∧ halted.rand = atTheBounds.rand ∧
    halted.soundExpired = atTheBounds.soundExpired ∧ halted.draws = atTheBounds.draws ∧ halted.agenda = atTheBounds.agenda ∧
    halted.later = atTheBounds.later :=
  ⟨fun h => absurd (congrArg State.pc h) (by decide), rfl, rfl, rfl, rfl, rfl, rfl, rfl⟩
theorem test_witness_OnlyKeypadInstructionsReadTheKeys :
    (∀ x, Instr.jp 0x300 ≠ .skp x ∧ Instr.jp 0x300 ≠ .sknp x ∧ Instr.jp 0x300 ≠ .ldVxK x) ∧
    exec (.jp 0x300) State.reset = .next (State.reset.writePc 0x300) := ⟨by decide, rfl⟩
theorem test_witness_NoInstructionReadsTheSoundTimer :
    exec (.ldVxDT 3) (State.reset.writeST 9) = .next ((State.reset.writeST 9).writeV 3 0).advance := rfl
/-- One valid entry; the stale ones differ. -/
theorem test_witness_StaleStackEntriesAreNeverRead :
    (∀ k : Fin 16, k.val < { State.reset with sp := 1 }.sp.val →
      ((Vector.replicate 16 (0x7FF : Word)).set 0 0)[k.val] = { State.reset with sp := 1 }.stack[k.val]) ∧
    exec .ret { State.reset with sp := 1 } = .next { State.reset with sp := 0, pc := 2 } := ⟨by decide, rfl⟩
theorem test_witness_QuiescentStatesStay : (State.reset.placeWord 0x1200).Quiescent :=
  ⟨rfl, by decide, 0x200, by decide, by decide⟩
/-- A key change first, then timer ticks for ever, against a key change that ends the schedule: they agree on one event. -/
theorem test_witness_RunsFollowTheirScheduleOnly :
    (∀ j, j < 1 → { State.reset with agenda := [.setKey 3 true], later := .repeats [] }.eventAt j =
      { State.reset with agenda := [.setKey 3 true], later := .repeats [.timerTick] }.eventAt j) ∧
    runSteps 1 { State.reset with agenda := [.setKey 3 true], later := .repeats [.timerTick] } =
      .next { pressed 3 with agenda := [], later := .repeats [.timerTick] } := ⟨by decide, rfl⟩

/-! ## Schedules (R7, R9 (d), D17) -/

/-- A schedule that has ended: no agent moves any more. -/
theorem test_schedule_ended :
    step { State.reset with later := .repeats [] } = .next { State.reset with later := .repeats [] } := rfl
/-- CPU tick and timer tick in turn, for ever: the schedule after two steps is the schedule before them. -/
theorem test_schedule_in_turn :
    nextSat (runSteps 2 { State.reset.writeDT 9 with later := .repeats [.timerTick, .cpuTick] })
      (fun t => t.dt == 8 && isHalt t .unknownOpcode 0 && t.agenda == [] && t.later == .repeats [.timerTick, .cpuTick]) = true := by
  decide
/-- The last event of an agenda of two, with the open schedule after it. -/
theorem test_witness_RunsPerformAnySchedule :
    1 < [Event.timerTick, Event.cpuTick].length ∧
    { State.reset with agenda := [.timerTick, .cpuTick], later := .free 7 }.eventAt 1 = some .cpuTick := by decide
/-- The schedule left open: the step is the open event's, whichever it is, and the next one is the one after it. -/
theorem test_schedule_open (s : State) (n : Nat) (h : s.agenda = []) (hl : s.later = .free n) :
    s.nextEvent = Config.schedule n ∧ s.takeEvent.later = .free (n + 1) := by
  simp [State.nextEvent, State.takeEvent, h, hl]
/-- With another event next, the placed word is fetched all the same. -/
theorem test_schedule_placed_word :
    ({ State.reset with agenda := [.timerTick] }.placeWord 0x1200).nextEvent = some .cpuTick := by decide

end Sys2Proof.Tests
end

section
/-! PROOFS. The frame of an instruction, put together from the frames of the updates it makes (00_scope.md R14). -/

namespace Sys2Proof.Machine

variable {s t u : State} {w : Part → Prop}

/-! ## One frame per update: it keeps a frame that lists what the update writes -/

theorem ChangesOnly.refl (s : State) (w : Part → Prop) : ChangesOnly s s w := fun p _ => by
  cases p with
  | schedule => exact ⟨rfl, rfl⟩
  | _ => rfl

theorem ChangesOnly.writePc {a : Word} (h : ChangesOnly s t w) (hw : w .pc) : ChangesOnly s (t.writePc a) w := fun p hp => by
  cases p with
  | pc => exact absurd hw hp
  | _ => exact h _ hp

theorem ChangesOnly.advance (h : ChangesOnly s t w) (hw : w .pc) : ChangesOnly s t.advance w := h.writePc hw

theorem ChangesOnly.skipIf {c : Bool} (h : ChangesOnly s t w) (hw : w .pc) : ChangesOnly s (t.skipIf c) w := h.writePc hw

theorem ChangesOnly.writeV {x : Reg} {b : Byte} (h : ChangesOnly s t w) (hw : w (.reg x)) :
    ChangesOnly s (t.writeV x b) w := fun p hp => by
  cases p with
  | reg r => exact (t.writeV_readV_of_ne x r b fun hxr => hp (hxr ▸ hw)).trans (h _ hp)
  | _ => exact h _ hp

theorem ChangesOnly.writeI {a : Word} (h : ChangesOnly s t w) (hw : w .index) : ChangesOnly s (t.writeI a) w := fun p hp => by
  cases p with
  | index => exact absurd hw hp
  | _ => exact h _ hp

theorem ChangesOnly.writeDT {b : Byte} (h : ChangesOnly s t w) (hw : w .delay) : ChangesOnly s (t.writeDT b) w := fun p hp => by
  cases p with
  | delay => exact absurd hw hp
  | _ => exact h _ hp

theorem ChangesOnly.writeST {b : Byte} (h : ChangesOnly s t w) (hw : w .sound) : ChangesOnly s (t.writeST b) w := fun p hp => by
  cases p with
  | sound => exact absurd hw hp
  | _ => exact h _ hp

theorem ChangesOnly.writeByte {a : Nat} {b : Byte} (h : ChangesOnly s t w) (hw : w (.byteAt a)) :
    ChangesOnly s (t.writeByte a b) w := fun p hp => by
  cases p with
  | byteAt a' => exact (t.writeByte_readByte_of_ne fun haa' : a = a' => hp (haa' ▸ hw)).trans (h _ hp)
  | _ => exact h _ hp

/-- A new framebuffer, which may differ in the listed pixels alone. -/
theorem ChangesOnly.writeFb {fb : Framebuffer} (h : ChangesOnly s t w)
    (hw : ∀ X Y, ¬ w (.pixel X Y) → fbGet fb X Y = fbGet s.fb X Y) : ChangesOnly s { t with fb := fb } w := fun p hp => by
  cases p with
  | pixel X Y => exact hw X Y hp
  | _ => exact h _ hp

theorem ChangesOnly.consumeRandom (h : ChangesOnly s t w) (hr : w .randomInput) (hd : w .draws) :
    ChangesOnly s t.consumeRandom w := fun p hp => by
  cases p with
  | randomInput => exact absurd hr hp
  | draws => exact absurd hd hp
  | _ => exact h _ hp

theorem ChangesOnly.writeSp {n : Fin 17} (h : ChangesOnly s t w) (hw : w .sp) : ChangesOnly s { t with sp := n } w :=
  fun p hp => by
    cases p with
    | sp => exact absurd hw hp
    | _ => exact h _ hp

theorem ChangesOnly.writeStack {k : Fin 16} {a : Word} (h : ChangesOnly s t w) (hw : w (.stackEntry k)) :
    ChangesOnly s { t with stack := t.stack.set k.val a } w := fun p hp => by
  cases p with
  | stackEntry j =>
    have hkj : k.val ≠ j.val := fun hkj => hp (Fin.ext hkj ▸ hw)
    exact (Vector.getElem_set_ne k.isLt j.isLt hkj).trans (h _ hp)
  | _ => exact h _ hp

theorem ChangesOnly.writeStatus {a : Status} (h : ChangesOnly s t w) (hw : w .status) :
    ChangesOnly s { t with status := a } w := fun p hp => by
  cases p with
  | status => exact absurd hw hp
  | _ => exact h _ hp

theorem ChangesOnly.storeBlock (h : ChangesOnly s t w) {n : Nat} (hw : ∀ k, k < n → w (.byteAt (t.dataAddr k))) :
    ChangesOnly s (t.storeBlock n) w := by
  induction n with
  | zero => exact h
  | succ n ih =>
    refine (ih fun k hk => hw k (Nat.lt_succ_of_lt hk)).writeByte ?_
    rw [State.storeBlock_dataAddr]
    exact hw n (Nat.lt_succ_self n)

theorem ChangesOnly.loadBlock (h : ChangesOnly s t w) {n : Nat} (hw : ∀ k, k < n → w (.reg (blockReg k))) :
    ChangesOnly s (t.loadBlock n) w := by
  induction n with
  | zero => exact h
  | succ n ih => exact (ih fun k hk => hw k (Nat.lt_succ_of_lt hk)).writeV (hw n (Nat.lt_succ_self n))

/-! ## The frame of an answer -/

/-- What a step that ends in `u` changes, it changes from `s` to `u`. -/
theorem ChangesOnly.of_next (hu : ChangesOnly s u w) (h : (.next u : Out) = .next t) : ChangesOnly s t w :=
  Host.Outcome.next.inj h ▸ hu

/-- An error writes STATUS alone (R161). -/
theorem ChangesOnly.of_raise {r : Raised} (h : s.raise r = .next t) : ChangesOnly s t (fun p => p = .status) :=
  ((ChangesOnly.refl s (fun p => p = .status)).writeStatus rfl).of_next h

/-- An instruction with a range check writes what it writes in range, or STATUS alone (R50). -/
theorem ChangesOnly.of_ifInRange {n : Nat} (hu : ChangesOnly s u w) (h : s.ifInRange n u = .next t) :
    ChangesOnly s t w ∨ ChangesOnly s t (fun p => p = .status) := by
  rcases State.ifInRange_next h with ⟨-, rfl⟩ | ⟨-, rfl⟩
  · exact .inl hu
  · exact .inr ((ChangesOnly.refl s _).writeStatus rfl)

/-! ## The instructions that branch -/

/-- `00EE` with an entry on the stack (R80). -/
theorem exec_ret_of_pos (h : 0 < s.sp.val) :
    exec .ret s =
      .next (({ s with sp := ⟨s.sp.val - 1, by omega⟩ } : State).writePc (s.stack[s.sp.val - 1]'(by omega))).advance := by
  simp [exec, execRet, State.pop_ok s h]

/-- `00EE` on an empty stack (R165). -/
theorem exec_ret_of_empty (h : s.sp.val = 0) : exec .ret s = s.raise ⟨.stackUnderflow, s.pc⟩ := by
  simp [exec, execRet, State.pop_empty s h]

/-- `2nnn` with room on the stack (R82). -/
theorem exec_call_of_lt (nnn : BitVec 12) (h : s.sp.val < 16) :
    exec (.call nnn) s =
      .next (({ s with stack := s.stack.set s.sp.val s.pc h, sp := ⟨s.sp.val + 1, by omega⟩ } : State).writePc
        (absolute nnn)) := by
  simp [exec, execCall, State.push_ok s s.pc h]

/-- `2nnn` on a full stack (R164). -/
theorem exec_call_of_full (nnn : BitVec 12) (h : s.sp.val = 16) : exec (.call nnn) s = s.raise ⟨.stackOverflow, s.pc⟩ := by
  simp [exec, execCall, State.push_full s s.pc h]

/-- `Fx0A` with a key to report (R152). -/
theorem exec_ldVxK_of_some (x : Reg) {k : Fin 16} (h : keySelect s.pressedKeys = some k) :
    exec (.ldVxK x) s = .next (s.writeV x (BitVec.ofNat 8 k.val)).advance := by
  simp [exec, execLdVxK, h]

/-- `Fx0A` with no key pressed (R152). -/
theorem exec_ldVxK_of_none (x : Reg) (h : keySelect s.pressedKeys = none) : exec (.ldVxK x) s = .next s := by
  simp [exec, execLdVxK, h]

/-- The stack has room or is full: `SP` is at most 16 (R24). -/
theorem State.sp_lt_or_full (s : State) : s.sp.val < 16 ∨ s.sp.val = 16 := Nat.lt_or_eq_of_le (Nat.le_of_lt_succ s.sp.isLt)

/-! ## The frames of the instructions with a case of their own -/

/-- A draw writes pixels of its sprite, VF and `pc` (R142, R143). -/
theorem drw_changesOnly (x y : Reg) (n : BitVec 4) (f : Byte) :
    ChangesOnly s ({ s with fb := (s.drawRows (s.readV x).toNat (s.readV y).toNat n.toNat).fb }.writeFlag f).advance
      (MayWrite s (.drw x y n)) := by
  have hpixels := (s.drawRows_spec x y n).2.1
  have hfb := (ChangesOnly.refl s (MayWrite s (.drw x y n))).writeFb fun X Y hXY =>
    hpixels X Y fun hS => hXY (.inr (.inr ⟨X, Y, hS, rfl⟩))
  exact (hfb.writeV (.inr (.inl rfl))).advance (.inl rfl)

/-- `Fx33` writes the three bytes from `I` and `pc` (R133). -/
theorem ldB_changesOnly (x : Reg) (b₀ b₁ b₂ : Byte) :
    ChangesOnly s (((s.writeByte (s.dataAddr 0) b₀).writeByte (s.dataAddr 1) b₁).writeByte (s.dataAddr 2) b₂).advance
      (MayWrite s (.ldB x)) := by
  have hw : ∀ k, k < 3 → MayWrite s (.ldB x) (.byteAt (s.dataAddr k)) := fun k hk => .inr ⟨k, hk, rfl⟩
  have h₀ := (ChangesOnly.refl s _).writeByte (b := b₀) (hw 0 (by decide))
  exact ((h₀.writeByte (hw 1 (by decide))).writeByte (hw 2 (by decide))).advance (.inl rfl)

/-- `Fx55` writes the `x + 1` bytes from `I` and `pc` (R134). -/
theorem storeRegs_changesOnly (x : Reg) :
    ChangesOnly s (s.storeBlock (x.toNat + 1)).advance (MayWrite s (.storeRegs x)) :=
  ((ChangesOnly.refl s _).storeBlock fun k hk => .inr ⟨k, Nat.le_of_lt_succ hk, rfl⟩).advance (.inl rfl)

/-- `Fx65` writes `V[0]` to `V[x]` and `pc` (R135). -/
theorem loadRegs_changesOnly (x : Reg) :
    ChangesOnly s (s.loadBlock (x.toNat + 1)).advance (MayWrite s (.loadRegs x)) := by
  have hx := x.isLt
  refine ((ChangesOnly.refl s _).loadBlock fun k hk => .inr ⟨blockReg k, ?_, rfl⟩).advance (.inl rfl)
  rw [blockReg_toNat (by omega)]
  omega

/-- `00EE` writes `SP` and `pc`, or it raises (R80, R165). -/
theorem ret_changesOnly (h : exec .ret s = .next t) :
    ChangesOnly s t (MayWrite s .ret) ∨ ChangesOnly s t (fun p => p = .status) := by
  rcases Nat.eq_zero_or_pos s.sp.val with hsp | hsp
  · rw [exec_ret_of_empty hsp] at h
    exact .inr (.of_raise h)
  · rw [exec_ret_of_pos hsp] at h
    exact .inl (((((ChangesOnly.refl s _).writeSp (.inr rfl)).writePc (.inl rfl)).advance (.inl rfl)).of_next h)

/-- `2nnn` writes the entry at `SP`, `SP` and `pc`, or it raises (R82, R164). -/
theorem call_changesOnly {nnn : BitVec 12} (h : exec (.call nnn) s = .next t) :
    ChangesOnly s t (MayWrite s (.call nnn)) ∨ ChangesOnly s t (fun p => p = .status) := by
  rcases s.sp_lt_or_full with hsp | hsp
  · rw [exec_call_of_lt nnn hsp] at h
    have hentry := (ChangesOnly.refl s (MayWrite s (.call nnn))).writeStack (k := ⟨s.sp.val, hsp⟩) (a := s.pc)
      (.inr (.inr ⟨_, rfl, rfl⟩))
    exact .inl (((hentry.writeSp (.inr (.inl rfl))).writePc (.inl rfl)).of_next h)
  · rw [exec_call_of_full nnn hsp] at h
    exact .inr (.of_raise h)

/-- `Fx0A` writes `V[x]` and `pc`, or nothing (R152). -/
theorem ldVxK_changesOnly {x : Reg} (h : exec (.ldVxK x) s = .next t) : ChangesOnly s t (MayWrite s (.ldVxK x)) := by
  cases hk : keySelect s.pressedKeys with
  | some k =>
    rw [exec_ldVxK_of_some x hk] at h
    exact (((ChangesOnly.refl s _).writeV (.inr rfl)).advance (.inl rfl)).of_next h
  | none =>
    rw [exec_ldVxK_of_none x hk] at h
    exact (ChangesOnly.refl s _).of_next h

/-- Settles O15: along the instructions, each frame put together from the frames of the updates the rule makes. -/
theorem instructionsWriteOnlyWhatTheirRuleLists : Obligations.InstructionsWriteOnlyWhatTheirRuleLists := by
  unfold Obligations.InstructionsWriteOnlyWhatTheirRuleLists
  intro i s t h
  have h₀ := ChangesOnly.refl s (MayWrite s i)
  cases i with
  | cls =>
    have hfb := h₀.writeFb (fb := fbBlank) fun X Y hXY => absurd (.inr ⟨X, Y, rfl⟩) hXY
    exact .inl ((hfb.advance (.inl rfl)).of_next h)
  | jp | jpV0 => exact .inl ((h₀.writePc rfl).of_next h)
  | seByte | sneByte | seReg | sneReg | skp | sknp => exact .inl ((h₀.skipIf rfl).of_next h)
  | ldByte | addByte | ldReg | orReg | andReg | xorReg | ldVxDT =>
    exact .inl (((h₀.writeV (.inr rfl)).advance (.inl rfl)).of_next h)
  | addReg | sub | shr | subn | shl =>
    exact .inl ((((h₀.writeV (.inr (.inr rfl))).writeV (.inr (.inl rfl))).advance (.inl rfl)).of_next h)
  | ldI | ldF => exact .inl (((h₀.writeI (.inr rfl)).advance (.inl rfl)).of_next h)
  | addI => exact .inl ((((h₀.writeV (.inr (.inr rfl))).writeI (.inr (.inl rfl))).advance (.inl rfl)).of_next h)
  | rnd =>
    have hdraw := h₀.consumeRandom (.inr (.inr (.inl rfl))) (.inr (.inr (.inr rfl)))
    exact .inl (((hdraw.writeV (.inr (.inl rfl))).advance (.inl rfl)).of_next h)
  | ldDTVx => exact .inl (((h₀.writeDT (.inr rfl)).advance (.inl rfl)).of_next h)
  | ldSTVx => exact .inl (((h₀.writeST (.inr rfl)).advance (.inl rfl)).of_next h)
  | ret => exact ret_changesOnly h
  | call nnn => exact call_changesOnly h
  | ldVxK x => exact .inl (ldVxK_changesOnly h)
  | drw x y n => exact (drw_changesOnly x y n _).of_ifInRange h
  | ldB x => exact (ldB_changesOnly x _ _ _).of_ifInRange h
  | storeRegs x => exact (storeRegs_changesOnly x).of_ifInRange h
  | loadRegs x => exact (loadRegs_changesOnly x).of_ifInRange h

end Sys2Proof.Machine
end

section
/-! PROOFS. A CPU tick executes the instruction decoded at `pc` (00_scope.md R6). -/

namespace Sys2Proof.Machine

/-- The schedule does not lie in memory: taking an event off it leaves the word at `pc`. -/
@[simp] theorem State.takeEvent_wordAtPc (s : State) : s.takeEvent.wordAtPc = s.wordAtPc := by simp [State.wordAtPc]

/-- Settles O8: the step is the tick on the state without the event, and there the fetch and the decode answer as before. -/
theorem stepRunsTheDecodedInstruction : Obligations.StepRunsTheDecodedInstruction := by
  unfold Obligations.StepRunsTheDecodedInstruction
  rintro s i ⟨hrun, hnext⟩ hpc hdecode
  rw [step_cpu hnext]
  exact cpuTick_run (by simpa using hrun) (by simpa using hpc) (by simpa using hdecode)

end Sys2Proof.Machine
end

section
/-! PROOFS. A run performs the events of its schedule in order, because no agent reads or writes the schedule left (00_scope.md R5, R7, R9 (d)). -/

namespace Sys2Proof.Machine

variable {s t u : State}

/-! ## Every step answers (log 8) -/

/-- The range check answers in range and out of it (R50). -/
theorem State.ifInRange_answers (s u : State) (n : Nat) : ∃ t, s.ifInRange n u = .next t := by
  cases hr : s.dataInRange n with
  | true => exact ⟨_, State.ifInRange_of_true hr⟩
  | false => exact ⟨_, State.ifInRange_of_false hr⟩

theorem exec_answers (i : Instr) (s : State) : ∃ t, exec i s = .next t := by
  cases i with
  | ret =>
    rcases Nat.eq_zero_or_pos s.sp.val with hsp | hsp
    · exact ⟨_, exec_ret_of_empty hsp⟩
    · exact ⟨_, exec_ret_of_pos hsp⟩
  | call nnn =>
    rcases s.sp_lt_or_full with hsp | hsp
    · exact ⟨_, exec_call_of_lt nnn hsp⟩
    · exact ⟨_, exec_call_of_full nnn hsp⟩
  | ldVxK x =>
    cases hk : keySelect s.pressedKeys with
    | some k => exact ⟨_, exec_ldVxK_of_some x hk⟩
    | none => exact ⟨_, exec_ldVxK_of_none x hk⟩
  | drw | ldB | storeRegs | loadRegs => exact s.ifInRange_answers _ _
  | _ => exact ⟨_, rfl⟩

theorem cpuTick_answers (s : State) : ∃ t, cpuTick s = .next t := by
  rcases cpuTick_cases s with ⟨-, h⟩ | ⟨-, _, -, h⟩ | ⟨-, _, _, -, -, h⟩ | ⟨-, _, i, -, -, h⟩
  · exact ⟨_, h⟩
  · exact ⟨_, h⟩
  · exact ⟨_, h⟩
  · rw [h]; exact exec_answers i s

theorem act_answers (e : Event) (s : State) : ∃ t, act e s = .next t := by
  cases e with
  | cpuTick => exact cpuTick_answers s
  | _ => exact ⟨_, rfl⟩

theorem step_answers (s : State) : ∃ t, step s = .next t := by
  cases he : s.nextEvent with
  | none => exact ⟨_, step_no_event he⟩
  | some e => rw [step_event he]; exact act_answers e s.takeEvent

theorem runSteps_answers (k : Nat) (s : State) : ∃ t, runSteps k s = .next t := by
  induction k generalizing s with
  | zero => exact ⟨s, rfl⟩
  | succ k ih =>
    obtain ⟨t, ht⟩ := step_answers s
    rw [runSteps_of_next k ht]
    exact ih t

/-! ## No agent reads or writes the schedule (R7, decision D17) -/

/-- The state with another schedule. -/
def State.withSchedule (s : State) (agenda : List Event) (later : Later) : State := { s with agenda := agenda, later := later }

variable {agenda : List Event} {later : Later}

@[simp] theorem State.withSchedule_status (s : State) : (s.withSchedule agenda later).status = s.status := rfl
@[simp] theorem State.withSchedule_fetch (s : State) : (s.withSchedule agenda later).fetch = s.fetch := rfl

/-- A replaced schedule forgets whether an event was taken off it before. -/
theorem State.takeEvent_withSchedule (s : State) : s.takeEvent.withSchedule agenda later = s.withSchedule agenda later := by
  rw [State.takeEvent_eq]; rfl

theorem State.storeBlock_withSchedule (s : State) (n : Nat) :
    (s.withSchedule agenda later).storeBlock n = (s.storeBlock n).withSchedule agenda later := by
  induction n with
  | zero => rfl
  | succ n ih => simp only [State.storeBlock, ih]; rfl

theorem State.loadBlock_withSchedule (s : State) (n : Nat) :
    (s.withSchedule agenda later).loadBlock n = (s.loadBlock n).withSchedule agenda later := by
  induction n with
  | zero => rfl
  | succ n ih => simp only [State.loadBlock, ih]; rfl

/-- Two equal answers stay equal when their schedules are replaced alike. -/
theorem next_withSchedule (h : (.next u : Out) = .next t) :
    (.next (u.withSchedule agenda later) : Out) = .next (t.withSchedule agenda later) :=
  Host.Outcome.next.inj h ▸ rfl

theorem State.raise_withSchedule {r : Raised} (h : s.raise r = .next t) :
    (s.withSchedule agenda later).raise r = .next (t.withSchedule agenda later) :=
  next_withSchedule h

theorem State.ifInRange_withSchedule {n : Nat} (h : s.ifInRange n u = .next t) :
    (s.withSchedule agenda later).ifInRange n (u.withSchedule agenda later) = .next (t.withSchedule agenda later) := by
  rcases State.ifInRange_next h with ⟨hr, rfl⟩ | ⟨hr, rfl⟩
  · exact State.ifInRange_of_true hr
  · exact State.ifInRange_of_false hr

theorem exec_withSchedule {i : Instr} (h : exec i s = .next t) :
    exec i (s.withSchedule agenda later) = .next (t.withSchedule agenda later) := by
  cases i with
  | ret =>
    rcases Nat.eq_zero_or_pos s.sp.val with hsp | hsp
    · rw [exec_ret_of_empty hsp] at h
      exact (exec_ret_of_empty (s := s.withSchedule agenda later) hsp).trans (State.raise_withSchedule h)
    · rw [exec_ret_of_pos hsp] at h
      exact (exec_ret_of_pos (s := s.withSchedule agenda later) hsp).trans (next_withSchedule h)
  | call nnn =>
    rcases s.sp_lt_or_full with hsp | hsp
    · rw [exec_call_of_lt nnn hsp] at h
      exact (exec_call_of_lt (s := s.withSchedule agenda later) nnn hsp).trans (next_withSchedule h)
    · rw [exec_call_of_full nnn hsp] at h
      exact (exec_call_of_full (s := s.withSchedule agenda later) nnn hsp).trans (State.raise_withSchedule h)
  | ldVxK x =>
    cases hk : keySelect s.pressedKeys with
    | some k =>
      rw [exec_ldVxK_of_some x hk] at h
      exact (exec_ldVxK_of_some (s := s.withSchedule agenda later) x hk).trans (next_withSchedule h)
    | none =>
      rw [exec_ldVxK_of_none x hk] at h
      exact (exec_ldVxK_of_none (s := s.withSchedule agenda later) x hk).trans (next_withSchedule h)
  | drw | ldB => exact State.ifInRange_withSchedule h
  | storeRegs x =>
    rw [exec, execStoreRegs, State.storeBlock_withSchedule]
    exact State.ifInRange_withSchedule h
  | loadRegs x =>
    rw [exec, execLoadRegs, State.loadBlock_withSchedule]
    exact State.ifInRange_withSchedule h
  | _ => exact next_withSchedule h

theorem decodeAndExecute_withSchedule {op : Word} (h : decodeAndExecute op s = .next t) :
    decodeAndExecute op (s.withSchedule agenda later) = .next (t.withSchedule agenda later) := by
  cases hd : decodeWord op with
  | error e =>
    simp only [decodeAndExecute, hd] at h ⊢
    exact State.raise_withSchedule h
  | ok i =>
    simp only [decodeAndExecute, hd] at h ⊢
    exact exec_withSchedule h

theorem cpuTick_withSchedule (h : cpuTick s = .next t) :
    cpuTick (s.withSchedule agenda later) = .next (t.withSchedule agenda later) := by
  cases hs : s.status with
  | halt e info =>
    simp only [cpuTick, State.withSchedule_status, hs] at h ⊢
    exact next_withSchedule h
  | run =>
    cases hf : s.fetch with
    | error r =>
      simp only [cpuTick, State.withSchedule_status, State.withSchedule_fetch, hs, hf] at h ⊢
      exact State.raise_withSchedule h
    | ok op =>
      simp only [cpuTick, State.withSchedule_status, State.withSchedule_fetch, hs, hf] at h ⊢
      exact decodeAndExecute_withSchedule h

theorem load_withSchedule (image : List Byte) (s : State) :
    load image (s.withSchedule agenda later) = (load image s).withSchedule agenda later := by
  unfold load
  split <;> rfl

theorem act_withSchedule {e : Event} (h : act e s = .next t) :
    act e (s.withSchedule agenda later) = .next (t.withSchedule agenda later) := by
  cases e with
  | cpuTick => exact cpuTick_withSchedule h
  | load image => rw [act, load_withSchedule]; exact next_withSchedule h
  | _ => exact next_withSchedule h

/-- A step leaves the schedule its agent started from: the events that come are one place nearer. -/
theorem step_eventAt (h : step s = .next t) (j : Nat) : t.eventAt j = s.eventAt (j + 1) := by
  rw [← State.takeEvent_eventAt]
  cases he : s.nextEvent with
  | none => rw [step_no_event he] at h; rw [← Host.Outcome.next.inj h]
  | some e =>
    rw [step_event he] at h
    have hkept := act_withSchedule (agenda := s.takeEvent.agenda) (later := s.takeEvent.later) h
    have ht : t = t.withSchedule s.takeEvent.agenda s.takeEvent.later := Host.Outcome.next.inj (h.symm.trans hkept)
    rw [ht]; rfl

/-! ## A run performs its schedule (R5, R7) -/

/-- The first `k + 1` events, when the first of them leads to `t`. -/
theorem State.upcoming_succ (h : step s = .next t) (k : Nat) : s.upcoming (k + 1) = s.eventAt 0 :: t.upcoming k := by
  simp only [State.upcoming, List.range_succ_eq_map, List.map_cons, List.map_map]
  congr 1
  exact List.map_congr_left fun j _ => (step_eventAt h j).symm

/-- Performing a step's event, whatever schedule the state holds, answers what the step answers but for that schedule. -/
theorem perform_step (h : step s = .next t) (rest : List (Option Event)) :
    perform (s.eventAt 0 :: rest) (s.withSchedule agenda later) = perform rest (t.withSchedule agenda later) := by
  rw [← State.nextEvent_eq, ← State.takeEvent_withSchedule]
  cases he : s.nextEvent with
  | none =>
    rw [step_no_event he] at h
    rw [perform, Host.Outcome.next.inj h]
  | some e =>
    rw [step_event he] at h
    simp only [perform, act_withSchedule h]

/-- A run answers what performing its first `k` events answers, whatever schedule the state holds for that. -/
theorem perform_upcoming {k : Nat} (h : runSteps k s = .next t) :
    perform (s.upcoming k) (s.withSchedule agenda later) = .next (t.withSchedule agenda later) := by
  induction k generalizing s with
  | zero => exact next_withSchedule h
  | succ k ih =>
    obtain ⟨s₁, hs₁⟩ := step_answers s
    rw [runSteps_of_next k hs₁] at h
    rw [State.upcoming_succ hs₁, perform_step hs₁]
    exact ih h

/-- Settles O59: both runs perform the same events on the same state, so they answer the same but for the schedules left. -/
theorem runsFollowTheirScheduleOnly : Obligations.RunsFollowTheirScheduleOnly := by
  unfold Obligations.RunsFollowTheirScheduleOnly
  intro k s t agenda later hevents ht
  obtain ⟨u, hu⟩ := runSteps_answers k (s.withSchedule agenda later)
  have hsame : (s.withSchedule agenda later).upcoming k = s.upcoming k :=
    List.map_congr_left fun j hj => hevents j (List.mem_range.mp hj)
  have hut : u.withSchedule t.agenda t.later = t.withSchedule t.agenda t.later := by
    have hperform := perform_upcoming (agenda := t.agenda) (later := t.later) hu
    rw [hsame] at hperform
    exact Host.Outcome.next.inj (hperform.symm.trans (perform_upcoming ht))
  exact ⟨u, hu, hut⟩

/-! ## The schedules a state can hold (R9 (d)) -/

theorem State.eventAt_of_lt {j : Nat} (h : j < s.agenda.length) : s.eventAt j = s.agenda[j]? := if_pos h

theorem State.eventAt_agenda_add (s : State) (j : Nat) : s.eventAt (s.agenda.length + j) = s.later.eventAt j := by
  simp [State.eventAt]

/-- A schedule that ends with its agenda. -/
theorem State.eventAt_of_ended (h : s.later = .repeats []) (j : Nat) : s.eventAt j = s.agenda[j]? := by
  rcases Nat.lt_or_ge j s.agenda.length with hj | hj
  · exact State.eventAt_of_lt hj
  · obtain ⟨d, rfl⟩ := Nat.exists_eq_add_of_le hj
    rw [State.eventAt_agenda_add, h, List.getElem?_eq_none hj, Later.eventAt]
    rfl

/-- Settles O60: the run by `perform_upcoming`, the schedules by the equations of `eventAt`. -/
theorem runsPerformAnySchedule : Obligations.RunsPerformAnySchedule := by
  unfold Obligations.RunsPerformAnySchedule
  intro s
  refine ⟨fun k => ?_, fun first later j hj => ?_, fun first j => ?_, fun first again j => ?_, fun first n j => ?_⟩
  · obtain ⟨t, ht⟩ := runSteps_answers k s
    exact ⟨t, t.withSchedule s.agenda s.later, ht, perform_upcoming ht, rfl⟩
  · exact State.eventAt_of_lt hj
  · exact State.eventAt_of_ended rfl j
  · exact State.eventAt_agenda_add (s.withSchedule first (.repeats again)) j
  · exact State.eventAt_agenda_add (s.withSchedule first (.free n)) j

end Sys2Proof.Machine
end

section
/-! PROOFS. The invariants of the state (10_state.md R22, R23, R24, R26): one rule per update, then the instructions, the CPU tick, the
load and the step put together from them. -/

namespace Sys2Proof.Machine

variable {s t u : State}

/-! ## The numbers a program counter and an index can take -/

theorem absolute_toNat_le (nnn : BitVec 12) : (absolute nnn).toNat ≤ 0xFFF := by
  have := nnn.isLt
  simp only [absolute, BitVec.toNat_setWidth]
  omega

/-- The farthest target of `Bnnn` is 0xFFF + 0xFF, the bound of `pc` (R23, decision D1). -/
theorem absolute_add_zextByte_toNat_le (nnn : BitVec 12) (b : Byte) : (absolute nnn + zextByte b).toNat ≤ 0x10FE := by
  have := absolute_toNat_le nnn
  have := b.isLt
  simp only [zextByte, BitVec.toNat_add, BitVec.toNat_setWidth]
  omega

/-- A fetch succeeds at 0x000 to 0xFFE only (R44). -/
theorem State.pc_le_of_fetch_ok {op : Word} (h : s.fetch = .ok op) : s.pc.toNat ≤ 0xFFE := by
  rcases s.fetch_cases with ⟨hpc, -⟩ | ⟨-, herr⟩ | ⟨-, herr⟩
  · exact hpc
  · exact nomatch h.symm.trans herr
  · exact nomatch h.symm.trans herr

/-! ## One rule per update -/

theorem State.Inv.writeV (h : s.Inv) (x : Reg) (b : Byte) : (s.writeV x b).Inv := { h with }
theorem State.Inv.writeDT (h : s.Inv) (b : Byte) : (s.writeDT b).Inv := { h with }
theorem State.Inv.writeST (h : s.Inv) (b : Byte) : (s.writeST b).Inv := { h with }
theorem State.Inv.writeFb (h : s.Inv) (fb : Framebuffer) : ({ s with fb := fb } : State).Inv := { h with }
theorem State.Inv.writeStatus (h : s.Inv) (a : Status) : ({ s with status := a } : State).Inv := { h with }
theorem State.Inv.consumeRandom (h : s.Inv) : s.consumeRandom.Inv := { h with }
theorem State.Inv.timerTick (h : s.Inv) : (timerTick s).Inv := { h with }
theorem State.Inv.setKey (h : s.Inv) (k : Fin 16) (pressed : Bool) : (setKey k pressed s).Inv := { h with }
theorem State.Inv.supplyByte (h : s.Inv) (b : Byte) : (supplyByte b s).Inv := { h with }
theorem State.Inv.takeEvent (h : s.Inv) : s.takeEvent.Inv := by rw [State.takeEvent_eq]; exact { h with }

theorem State.Inv.writePc {a : Word} (h : s.Inv) (ha : a.toNat ≤ 0x10FE) : (s.writePc a).Inv := { h with pcBounded := ha }

/-- `pc` stays in its bound when it moves on from an address at which a fetch succeeded. -/
theorem State.Inv.advance (h : s.Inv) (hpc : s.pc.toNat ≤ 0xFFE) : s.advance.Inv := h.writePc (by bv_omega)

theorem State.Inv.skipIf (h : s.Inv) (hpc : s.pc.toNat ≤ 0xFFE) (c : Bool) : (s.skipIf c).Inv := by
  refine h.writePc ?_
  cases c with
  | true => simp only [if_true]; bv_omega
  | false => exact (h.advance hpc).pcBounded

theorem State.Inv.writeI (h : s.Inv) (a : Word) : (s.writeI a).Inv :=
  { h with
    indexIs12Bits := by
      rw [State.IndexIs12Bits, State.writeI_i, mask12_toNat]
      omega }

theorem State.Inv.writeByte {a : Nat} (h : s.Inv) (ha : a ≤ 0xFFF) (b : Byte) : (s.writeByte a b).Inv :=
  { h with memCanonical := State.writeByte_wf s h.memCanonical ha }

theorem State.Inv.loadBlock (h : s.Inv) (n : Nat) : (s.loadBlock n).Inv := by
  induction n with
  | zero => exact h
  | succ n ih => exact ih.writeV _ _

theorem State.Inv.storeBlock {n : Nat} (h : s.Inv) (hn : s.dataInRange n = true) : (s.storeBlock n).Inv := by
  have hwf := State.storeBlock_wf h.memCanonical (State.dataInRange_iff.mp hn)
  rw [State.storeBlock_eq] at hwf ⊢
  exact { h with memCanonical := hwf }

/-- Dropping the last stack entry leaves fetch addresses. -/
theorem State.Inv.dropEntry {n : Fin 17} (h : s.Inv) (hn : n.val ≤ s.sp.val) : ({ s with sp := n } : State).Inv :=
  { h with stackHoldsFetchAddresses := fun k hk => h.stackHoldsFetchAddresses k (Nat.lt_of_lt_of_le hk hn) }

/-- A fetch address pushed leaves fetch addresses. -/
theorem State.Inv.pushEntry {a : Word} (h : s.Inv) (hsp : s.sp.val < 16) (ha : a.toNat ≤ 0xFFE) :
    ({ s with stack := s.stack.set s.sp.val a hsp, sp := ⟨s.sp.val + 1, by omega⟩ } : State).Inv :=
  { h with
    stackHoldsFetchAddresses := fun k hk => by
      rcases Nat.lt_or_eq_of_le (Nat.le_of_lt_succ hk) with hlt | heq
      · rw [Vector.getElem_set_ne hsp k.isLt (Nat.ne_of_gt hlt)]
        exact h.stackHoldsFetchAddresses k hlt
      · simpa only [heq, Vector.getElem_set_self] using ha }

/-! ## The instructions -/

theorem State.Inv.of_next (hu : u.Inv) (h : (.next u : Out) = .next t) : t.Inv := Host.Outcome.next.inj h ▸ hu

theorem State.Inv.of_raise {r : Raised} (hs : s.Inv) (h : s.raise r = .next t) : t.Inv := (hs.writeStatus _).of_next h

/-- Under a range check the result need meet the invariants only in range. -/
theorem State.Inv.of_ifInRange {n : Nat} (hs : s.Inv) (h : s.ifInRange n u = .next t)
    (hu : s.dataInRange n = true → u.Inv) : t.Inv := by
  rcases State.ifInRange_next h with ⟨hr, rfl⟩ | ⟨-, rfl⟩
  · exact hu hr
  · exact hs.writeStatus _

theorem ret_inv (hs : s.Inv) (h : exec .ret s = .next t) : t.Inv := by
  rcases Nat.eq_zero_or_pos s.sp.val with hsp | hsp
  · rw [exec_ret_of_empty hsp] at h
    exact hs.of_raise h
  · rw [exec_ret_of_pos hsp] at h
    have hentry : (s.stack[s.sp.val - 1]'(by omega)).toNat ≤ 0xFFE :=
      hs.stackHoldsFetchAddresses ⟨s.sp.val - 1, by omega⟩ (Nat.sub_lt hsp Nat.one_pos)
    exact (((hs.dropEntry (Nat.sub_le _ _)).writePc (Nat.le_trans hentry (by decide))).advance hentry).of_next h

theorem call_inv {nnn : BitVec 12} (hs : s.Inv) (hpc : s.pc.toNat ≤ 0xFFE) (h : exec (.call nnn) s = .next t) : t.Inv := by
  rcases s.sp_lt_or_full with hsp | hsp
  · rw [exec_call_of_lt nnn hsp] at h
    exact ((hs.pushEntry hsp hpc).writePc (Nat.le_trans (absolute_toNat_le nnn) (by decide))).of_next h
  · rw [exec_call_of_full nnn hsp] at h
    exact hs.of_raise h

theorem ldVxK_inv {x : Reg} (hs : s.Inv) (hpc : s.pc.toNat ≤ 0xFFE) (h : exec (.ldVxK x) s = .next t) : t.Inv := by
  cases hk : keySelect s.pressedKeys with
  | some k =>
    rw [exec_ldVxK_of_some x hk] at h
    exact ((hs.writeV _ _).advance hpc).of_next h
  | none =>
    rw [exec_ldVxK_of_none x hk] at h
    exact hs.of_next h

theorem ldB_inv {x : Reg} (hs : s.Inv) (hpc : s.pc.toNat ≤ 0xFFE) (h : exec (.ldB x) s = .next t) : t.Inv := by
  refine hs.of_ifInRange h fun hr => ?_
  have htop := State.dataInRange_succ.mp hr
  have haddr : ∀ k, k ≤ 2 → s.dataAddr k ≤ 0xFFF := fun k hk => Nat.le_trans (Nat.add_le_add_left hk _) htop
  have h₀ := hs.writeByte (haddr 0 (by decide)) (bcdDigit (s.readV x) 100)
  have h₁ := h₀.writeByte (haddr 1 (by decide)) (bcdDigit (s.readV x) 10)
  exact (h₁.writeByte (haddr 2 (by decide)) _).advance hpc

/-- An instruction run at a fetch address keeps the invariants. -/
theorem exec_inv {i : Instr} (hs : s.Inv) (hpc : s.pc.toNat ≤ 0xFFE) (h : exec i s = .next t) : t.Inv := by
  cases i with
  | cls => exact ((hs.writeFb fbBlank).advance hpc).of_next h
  | jp nnn => exact (hs.writePc (Nat.le_trans (absolute_toNat_le nnn) (by decide))).of_next h
  | jpV0 nnn => exact (hs.writePc (absolute_add_zextByte_toNat_le nnn _)).of_next h
  | seByte | sneByte | seReg | sneReg | skp | sknp => exact (hs.skipIf hpc _).of_next h
  | ldByte | addByte | ldReg | orReg | andReg | xorReg | ldVxDT => exact ((hs.writeV _ _).advance hpc).of_next h
  | addReg | sub | shr | subn | shl => exact (((hs.writeV _ _).writeV _ _).advance hpc).of_next h
  | ldI | ldF => exact ((hs.writeI _).advance hpc).of_next h
  | addI => exact (((hs.writeV _ _).writeI _).advance hpc).of_next h
  | rnd => exact ((hs.consumeRandom.writeV _ _).advance hpc).of_next h
  | ldDTVx x => exact ((hs.writeDT (s.readV x)).advance hpc).of_next h
  | ldSTVx x => exact ((hs.writeST (s.readV x)).advance hpc).of_next h
  | ret => exact ret_inv hs h
  | call nnn => exact call_inv hs hpc h
  | ldVxK x => exact ldVxK_inv hs hpc h
  | drw => exact hs.of_ifInRange h fun _ => ((hs.writeFb _).writeV _ _).advance hpc
  | ldB x => exact ldB_inv hs hpc h
  | storeRegs x =>
    exact hs.of_ifInRange h fun hr => (hs.storeBlock hr).advance (by rwa [State.storeBlock_pc])
  | loadRegs x => exact hs.of_ifInRange h fun _ => (hs.loadBlock _).advance (by rwa [State.loadBlock_pc])

/-! ## The agents -/

theorem cpuTick_inv (hs : s.Inv) (h : cpuTick s = .next t) : t.Inv := by
  rcases cpuTick_cases s with ⟨-, heq⟩ | ⟨-, _, -, heq⟩ | ⟨-, _, _, -, -, heq⟩ | ⟨-, _, _, hfetch, -, heq⟩
  · exact hs.of_next (heq ▸ h)
  · exact hs.of_raise (heq ▸ h)
  · exact hs.of_raise (heq ▸ h)
  · exact exec_inv hs (State.pc_le_of_fetch_ok hfetch) (heq ▸ h)

/-- A rebuilt state meets the invariants, whatever the state before. -/
theorem State.rebuild_inv (s : State) : s.rebuild.Inv where
  memCanonical := rfl
  indexIs12Bits := Nat.zero_le _
  pcBounded := by rw [State.PcBounded, State.rebuild_pc]; decide
  stackHoldsFetchAddresses := fun k hk => absurd hk (Nat.not_lt_zero _)

theorem load_of_accepted {image : List Byte} (s : State) (h : image.length ≤ 3584) :
    load image s = { s.rebuild with mem := imageCells s.font 0x200 image, status := .run } :=
  if_neg (Nat.not_lt.mpr h)

theorem load_of_refused {image : List Byte} (s : State) (h : 3584 < image.length) :
    load image s =
      { s.rebuild with status := .halt .imageTooLarge (BitVec.ofNat 16 (min image.length 0xFFFF)) } :=
  if_pos h

/-- A load, accepted or refused, leads from any state to one that meets the invariants. -/
theorem load_inv (image : List Byte) (s : State) : (load image s).Inv := by
  rcases Nat.lt_or_ge 3584 image.length with h | h
  · rw [load_of_refused s h]
    exact s.rebuild_inv.writeStatus _
  · rw [load_of_accepted s h]
    have hwf := imageCells_wf (font := s.font) (a := 0x200) image (by omega)
    exact { s.rebuild_inv with memCanonical := Memory.wfFrom_mono hwf (Nat.zero_le _) }

/-- Settles O17: whichever agent moves, its step is made of updates that keep the invariants. -/
theorem everyStepKeepsTheInvariant : Obligations.EveryStepKeepsTheInvariant := by
  unfold Obligations.EveryStepKeepsTheInvariant
  intro s t hs h
  have hs' := hs.takeEvent
  cases he : s.nextEvent with
  | none =>
    rw [step_no_event he] at h
    exact hs'.of_next h
  | some e =>
    rw [step_event he] at h
    cases e with
    | cpuTick => exact cpuTick_inv hs' h
    | timerTick => exact hs'.timerTick.of_next h
    | setKey k pressed => exact (hs'.setKey k pressed).of_next h
    | supplyByte b => exact (hs'.supplyByte b).of_next h
    | load image => exact (load_inv image _).of_next h

/-- Settles O16: the reset state is a rebuilt state, and it runs. -/
theorem resetMeetsTheInvariants : Obligations.ResetMeetsTheInvariants := by
  unfold Obligations.ResetMeetsTheInvariants
  exact ⟨State.reset.rebuild_inv, trivial⟩

end Sys2Proof.Machine
end

section
/-! PROOFS. What the host's steps change: a key change, a supplied random byte, an accepted `Load` (10_state.md R28, R29, R34;
70_reset_and_hazards.md R190, R191). -/

namespace Sys2Proof.Machine

variable {s t : State} {w : Part → Prop}

/-! ## The frames of the host's inputs -/

theorem ChangesOnly.takeEvent (h : ChangesOnly s t w) (hw : w .schedule) : ChangesOnly s t.takeEvent w := by
  rw [State.takeEvent_eq]
  intro p hp
  cases p with
  | schedule => exact absurd hw hp
  | _ => exact h _ hp

theorem ChangesOnly.setKey {k : Fin 16} {pressed : Bool} (h : ChangesOnly s t w) (hw : w (.key k)) :
    ChangesOnly s (setKey k pressed t) w := fun p hp => by
  cases p with
  | key j =>
    have hkj : k ≠ j := fun hkj => hp (hkj ▸ hw)
    exact (setKey_keyPressed t k j pressed).trans ((if_neg hkj).trans (h _ hp))
  | _ => exact h _ hp

theorem ChangesOnly.supplyByte {b : Byte} (h : ChangesOnly s t w) (hw : w .randomInput) :
    ChangesOnly s (supplyByte b t) w := fun p hp => by
  cases p with
  | randomInput => exact absurd hw hp
  | _ => exact h _ hp

/-- Settles O51: taking the event changes the schedule, and the host's action changes its input. -/
theorem hostInputsChangeOnlyTheirInput : Obligations.HostInputsChangeOnlyTheirInput := by
  unfold Obligations.HostInputsChangeOnlyTheirInput
  intro s k pressed b
  refine ⟨fun he => ⟨_, step_event he, ?_, rfl, rfl, ?_⟩, fun he => ⟨_, step_event he, ?_, rfl, rfl, ?_⟩⟩
  · rw [setKey_keyPressed, if_pos rfl]
  · exact ((ChangesOnly.refl s _).takeEvent (.inr rfl)).setKey (.inl rfl)
  · rw [supplyByte_rand, State.takeEvent_rand]
  · exact ((ChangesOnly.refl s _).takeEvent (.inr rfl)).supplyByte (.inl rfl)

/-! ## Memory after an accepted Load -/

theorem Memory.unlisted_font (font : Vector Byte 80) (a : Fin 80) : Memory.unlisted font a.val = font[a.val] := dif_pos a.isLt

theorem Memory.unlisted_of_ge (font : Vector Byte 80) {a : Nat} (h : 0x050 ≤ a) : Memory.unlisted font a = 0 :=
  dif_neg (Nat.not_lt.mpr h)

variable {image : List Byte} (s)

theorem load_readByte_of_accepted (h : image.length ≤ 3584) (a : Nat) :
    (load image s).readByte a =
      if 0x200 ≤ a then (image[a - 0x200]?).getD (Memory.unlisted s.font a) else Memory.unlisted s.font a := by
  rw [load_of_accepted s h]
  exact imageCells_read image a (by omega)

/-- Below the image memory reads as it does unlisted. -/
theorem load_readByte_below (h : image.length ≤ 3584) {a : Nat} (ha : a < 0x200) :
    (load image s).readByte a = Memory.unlisted s.font a := by
  rw [load_readByte_of_accepted s h, if_neg (Nat.not_le.mpr ha)]

theorem load_readByte_image (h : image.length ≤ 3584) {j : Nat} (hj : j < image.length) :
    (load image s).readByte (0x200 + j) = image[j] := by
  rw [load_readByte_of_accepted s h, if_pos (Nat.le_add_right _ _), Nat.add_sub_cancel_left, List.getElem?_eq_getElem hj]
  rfl

/-- Above the image memory is 0 (decision D13). -/
theorem load_readByte_above (h : image.length ≤ 3584) {a : Nat} (ha : 0x200 + image.length ≤ a) :
    (load image s).readByte a = 0 := by
  rw [load_readByte_of_accepted s h, if_pos (by omega), List.getElem?_eq_none (by omega)]
  exact Memory.unlisted_of_ge s.font (by omega)

theorem State.rebuild_readV (r : Reg) : s.rebuild.readV r = 0 := by
  simp only [State.readV, State.rebuild_v, Vector.getElem_replicate]

theorem State.rebuild_stackEntry (k : Fin 16) : s.rebuild.stack[k.val] = 0 := by
  simp only [State.rebuild_stack, Vector.getElem_replicate]

/-- Settles O52: memory by the ranges of its addresses, every other piece by the rebuilt state. -/
theorem loadRebuildsTheWholeState : Obligations.LoadRebuildsTheWholeState := by
  unfold Obligations.LoadRebuildsTheWholeState
  intro s image he hlen
  refine ⟨_, step_event he, ?_⟩
  have hfont : ∀ a : Fin 80, (load image s.takeEvent).readByte a.val = s.font[a.val] := fun a => by
    have hbelow := load_readByte_below s.takeEvent hlen (a := a.val) (by omega)
    simpa only [Memory.unlisted_font, State.takeEvent_font] using hbelow
  have hgap : ∀ a, 0x050 ≤ a → a ≤ 0x1FF → (load image s.takeEvent).readByte a = 0 := fun a ha ha' =>
    (load_readByte_below s.takeEvent hlen (by omega)).trans (Memory.unlisted_of_ge _ ha)
  have himage : ∀ j (h : j < image.length), (load image s.takeEvent).readByte (0x200 + j) = image[j] := fun j hj =>
    load_readByte_image s.takeEvent hlen hj
  have hfill : ∀ a, 0x200 + image.length ≤ a → a ≤ 0xFFF → (load image s.takeEvent).readByte a = 0 := fun a ha _ =>
    load_readByte_above s.takeEvent hlen ha
  rw [load_of_accepted s.takeEvent hlen] at hfont hgap himage hfill ⊢
  exact ⟨s.takeEvent.rebuild_readV, rfl, rfl, rfl, s.takeEvent.rebuild_stackEntry, rfl, rfl, hfont, hgap, himage, hfill,
    fbGet_blank, rfl, s.takeEvent_keys, s.takeEvent_rand, s.takeEvent_draws, s.takeEvent_font, s.takeEvent_soundExpired, rfl, rfl⟩

end Sys2Proof.Machine
end

section
/-! PROOFS. What the instructions do not read: the keys, but for the three keypad instructions; `ST`; the stack entries at `SP` and
above (10_state.md R24, R25, R28). One lemma, `exec_withUnread`, says for all three at once how the answer of an instruction depends
on them. -/

namespace Sys2Proof.Machine

variable {s t u : State} {i : Instr}

/-! ## Other contents for the places that are not read -/

/-- Other contents for the keys, `ST` and the stack. -/
structure Unread where
  keys : Vector Bool 16
  st : Byte
  stack : Vector Word 16

/-- The state with those contents. -/
def State.withUnread (s : State) (o : Unread) : State := { s with keys := o.keys, st := o.st, stack := o.stack }

theorem State.withUnread_keyPressed {o : Unread} (hkeys : o.keys = s.keys) (k : Fin 16) :
    (s.withUnread o).keyPressed k = s.keyPressed k :=
  congrArg (·[k.val]) hkeys

theorem State.storeBlock_withUnread (s : State) (o : Unread) (n : Nat) :
    (s.withUnread o).storeBlock n = (s.storeBlock n).withUnread o := by
  induction n with
  | zero => rfl
  | succ n ih => simp only [State.storeBlock, ih]; rfl

theorem State.loadBlock_withUnread (s : State) (o : Unread) (n : Nat) :
    (s.withUnread o).loadBlock n = (s.loadBlock n).withUnread o := by
  induction n with
  | zero => rfl
  | succ n ih => simp only [State.loadBlock, ih]; rfl

/-- How contents `o` before an instruction and `o'` after it compare with those of the states `s` and `t` before and after: the
keys are kept, `ST` and the stack differ after only if they differed before, and the valid stack entries do not differ. -/
structure Unread.Follows (o o' : Unread) (s t : State) : Prop where
  keys : o'.keys = o.keys
  keysKept : t.keys = s.keys
  st : o.st = s.st → o'.st = t.st
  stack : o.stack = s.stack → o'.stack = t.stack
  validEntries : ∀ k : Fin 16, k.val < t.sp.val → o'.stack[k.val] = t.stack[k.val]

/-- With `o` in `s` the instruction answers `t` too, but for contents that follow from `o`. -/
def Unread.Answers (o : Unread) (i : Instr) (s t : State) : Prop :=
  ∃ o', exec i (s.withUnread o) = .next (t.withUnread o') ∧ o.Follows o' s t

variable {o o' : Unread}

theorem Unread.Answers.of_next (h : exec i s = .next t) (hu : exec i s = .next u)
    (hu' : exec i (s.withUnread o) = .next (u.withUnread o')) (hfollows : o.Follows o' s u) : o.Answers i s t := by
  obtain rfl : u = t := Host.Outcome.next.inj (hu.symm.trans h)
  exact ⟨o', hu', hfollows⟩

section ValidEntries

variable (ho : ∀ k : Fin 16, k.val < s.sp.val → o.stack[k.val] = s.stack[k.val])
include ho

/-- The contents stay the same past an instruction that writes none of them. -/
theorem Unread.Follows.same (hkeys : t.keys = s.keys) (hst : t.st = s.st) (hstack : t.stack = s.stack)
    (hsp : t.sp.val ≤ s.sp.val) : o.Follows o s t where
  keys := rfl
  keysKept := hkeys
  st := fun h => h.trans hst.symm
  stack := fun h => h.trans hstack.symm
  validEntries := fun k hk => by simpa only [hstack] using ho k (Nat.lt_of_lt_of_le hk hsp)

/-! ## The instructions with a case of their own -/

theorem Unread.Answers.of_ifInRange {n : Nat} (h : exec i s = .next t) (hi : exec i s = s.ifInRange n u)
    (hi' : exec i (s.withUnread o) = (s.withUnread o).ifInRange n (u.withUnread o)) (hfollows : o.Follows o s u) :
    o.Answers i s t := by
  cases hr : s.dataInRange n with
  | true => exact .of_next h (hi.trans (State.ifInRange_of_true hr)) (hi'.trans (State.ifInRange_of_true hr)) hfollows
  | false =>
    exact .of_next h (hi.trans (State.ifInRange_of_false hr)) (hi'.trans (State.ifInRange_of_false hr))
      (.same ho rfl rfl rfl le_rfl)

/-- `00EE` reads the last valid entry alone (R80). -/
theorem ret_withUnread (h : exec .ret s = .next t) : o.Answers .ret s t := by
  rcases Nat.eq_zero_or_pos s.sp.val with hsp | hsp
  · exact .of_next h (exec_ret_of_empty hsp) (exec_ret_of_empty (s := s.withUnread o) hsp) (.same ho rfl rfl rfl le_rfl)
  · have hentry : (s.withUnread o).stack[(s.withUnread o).sp.val - 1]'(by omega) = s.stack[s.sp.val - 1]'(by omega) :=
      ho ⟨s.sp.val - 1, by omega⟩ (Nat.sub_lt hsp Nat.one_pos)
    have hret := exec_ret_of_pos (s := s.withUnread o) hsp
    rw [hentry] at hret
    exact .of_next h (exec_ret_of_pos hsp) hret (.same ho rfl rfl rfl (Nat.sub_le _ _))

/-- `2nnn` writes the entry at `SP`, whatever the entry held (R82). -/
theorem call_withUnread {nnn : BitVec 12} (h : exec (.call nnn) s = .next t) : o.Answers (.call nnn) s t := by
  rcases s.sp_lt_or_full with hsp | hsp
  · refine .of_next h (exec_call_of_lt nnn hsp) (o' := { o with stack := o.stack.set s.sp.val s.pc hsp })
      (exec_call_of_lt (s := s.withUnread o) nnn hsp) ⟨rfl, rfl, id, fun hstack => ?_, fun k hk => ?_⟩
    · exact congrArg (·.set s.sp.val s.pc hsp) hstack
    · simp only [State.writePc_stack, Vector.getElem_set]
      rcases Nat.lt_or_eq_of_le (Nat.le_of_lt_succ hk) with hlt | heq
      · rw [if_neg (Nat.ne_of_gt hlt), if_neg (Nat.ne_of_gt hlt), ho k hlt]
      · rw [if_pos heq.symm, if_pos heq.symm]
  · exact .of_next h (exec_call_of_full nnn hsp) (exec_call_of_full (s := s.withUnread o) nnn hsp)
      (.same ho rfl rfl rfl le_rfl)

/-- `Fx0A` reads the keys, and of the three contents nothing else (R152). -/
theorem ldVxK_withUnread {x : Reg} (hkeys : o.keys = s.keys) (h : exec (.ldVxK x) s = .next t) : o.Answers (.ldVxK x) s t := by
  have hpressed : (s.withUnread o).pressedKeys = s.pressedKeys :=
    List.filter_congr fun k _ => State.withUnread_keyPressed hkeys k
  cases hk : keySelect s.pressedKeys with
  | some k =>
    exact .of_next h (exec_ldVxK_of_some x hk) (exec_ldVxK_of_some x (hpressed.symm ▸ hk)) (.same ho rfl rfl rfl le_rfl)
  | none =>
    exact .of_next h (exec_ldVxK_of_none x hk) (exec_ldVxK_of_none x (hpressed.symm ▸ hk)) (.same ho rfl rfl rfl le_rfl)

/-- Every instruction answers alike whatever `ST` and the stale stack entries are, and, but for the keypad instructions, whatever the
keys are. -/
theorem exec_withUnread (hkeys : (∀ x, i ≠ .skp x ∧ i ≠ .sknp x ∧ i ≠ .ldVxK x) ∨ o.keys = s.keys)
    (h : exec i s = .next t) : o.Answers i s t := by
  cases i with
  | skp x =>
    have hkeys := hkeys.resolve_left fun hne => (hne x).1 rfl
    exact .of_next h rfl (by rw [exec, execSkp, State.withUnread_keyPressed hkeys]; rfl) (.same ho rfl rfl rfl le_rfl)
  | sknp x =>
    have hkeys := hkeys.resolve_left fun hne => (hne x).2.1 rfl
    exact .of_next h rfl (by rw [exec, execSknp, State.withUnread_keyPressed hkeys]; rfl) (.same ho rfl rfl rfl le_rfl)
  | ldVxK x => exact ldVxK_withUnread ho (hkeys.resolve_left fun hne => (hne x).2.2 rfl) h
  | ret => exact ret_withUnread ho h
  | call nnn => exact call_withUnread ho h
  | ldSTVx x => exact .of_next h rfl (o' := { o with st := s.readV x }) rfl ⟨rfl, rfl, fun _ => rfl, id, ho⟩
  | drw | ldB => exact .of_ifInRange ho h rfl rfl (.same ho rfl rfl rfl le_rfl)
  | storeRegs x =>
    refine .of_ifInRange ho h rfl (by rw [exec, execStoreRegs, State.storeBlock_withUnread]; rfl) ?_
    rw [State.storeBlock_eq]
    exact .same ho rfl rfl rfl le_rfl
  | loadRegs x =>
    refine .of_ifInRange ho h rfl (by rw [exec, execLoadRegs, State.loadBlock_withUnread]; rfl) ?_
    rw [State.loadBlock_eq]
    exact .same ho rfl rfl rfl le_rfl
  | _ => exact .of_next h rfl rfl (.same ho rfl rfl rfl le_rfl)

end ValidEntries

/-! ## One of the three at a time -/

/-- Settles O55: with other keys, and `ST` and the stack as in `s`, what follows is those keys and the `ST` and stack of `t`. -/
theorem onlyKeypadInstructionsReadTheKeys : Obligations.OnlyKeypadInstructionsReadTheKeys := by
  unfold Obligations.OnlyKeypadInstructionsReadTheKeys
  intro i s t ks hi h
  obtain ⟨⟨keys, st, stack⟩, hu, hfollows⟩ := exec_withUnread (o := ⟨ks, s.st, s.stack⟩) (fun _ _ => rfl) (.inl hi) h
  obtain rfl : keys = ks := hfollows.keys
  obtain rfl : st = t.st := hfollows.st rfl
  obtain rfl : stack = t.stack := hfollows.stack rfl
  exact hu

/-- Settles O56: with another `ST`, and the keys and the stack as in `s`, the keys and the stack that follow are those of `t`. -/
theorem noInstructionReadsTheSoundTimer : Obligations.NoInstructionReadsTheSoundTimer := by
  unfold Obligations.NoInstructionReadsTheSoundTimer
  intro i s t b h
  obtain ⟨⟨keys, st, stack⟩, hu, hfollows⟩ := exec_withUnread (o := ⟨s.keys, b, s.stack⟩) (fun _ _ => rfl) (.inr rfl) h
  obtain rfl : keys = t.keys := hfollows.keys.trans hfollows.keysKept.symm
  obtain rfl : stack = t.stack := hfollows.stack rfl
  exact ⟨_, hu, rfl⟩

/-- Settles O57: with other stale entries, and the keys and `ST` as in `s`, the keys, `ST` and valid entries that follow are those
of `t`. -/
theorem staleStackEntriesAreNeverRead : Obligations.StaleStackEntriesAreNeverRead := by
  unfold Obligations.StaleStackEntriesAreNeverRead
  intro i s t other hother h
  obtain ⟨⟨keys, st, stack⟩, hu, hfollows⟩ := exec_withUnread (o := ⟨s.keys, s.st, other⟩) hother (.inr rfl) h
  obtain rfl : keys = t.keys := hfollows.keys.trans hfollows.keysKept.symm
  obtain rfl : st = t.st := hfollows.st rfl
  exact ⟨_, hu, rfl, hfollows.validEntries⟩

end Sys2Proof.Machine
end

section
/-! PROOFS. A fetch reads the word at `pc` as memory holds it now, or leaves memory and halts the core; data out of range halts it
before any write (20_memory.md R44, R50, R54). -/

namespace Sys2Proof.Machine

variable {s t : State}

/-! ## The fetch (R44) -/

/-- Settles O7: the three ranges of `pc`, each by the law of the fetch there. -/
theorem fetchReadsTheBigEndianWordAtPc : Obligations.FetchReadsTheBigEndianWordAtPc := by
  unfold Obligations.FetchReadsTheBigEndianWordAtPc
  exact fun s => ⟨fun h => ⟨_, State.fetch_ok h, wordOfBytes_toNat _ _⟩, State.fetch_error_last, State.fetch_error⟩

/-- A fetch that leaves memory raises with the first address above it (R163 (a), (b)). -/
theorem State.fetch_error_of_outside (h : 0xFFE < s.pc.toNat) :
    ∃ info, s.fetch = .error ⟨.addressOutOfRange, info⟩ ∧ info.toNat = max s.pc.toNat 0x1000 := by
  rcases s.fetch_cases with ⟨hin, -⟩ | ⟨hlast, hf⟩ | ⟨habove, hf⟩
  · omega
  · exact ⟨_, hf, by rw [hlast]; decide⟩
  · exact ⟨_, hf, by omega⟩

/-- A CPU tick of a running core whose fetch raises (R167). -/
theorem cpuTick_fetch_error {r : Raised} (hrun : s.status = .run) (hf : s.fetch = .error r) : cpuTick s = s.raise r := by
  simp only [cpuTick, hrun, hf]

/-- Settles O9: the step is the tick on the state without the event; its fetch raises, which writes STATUS alone. -/
theorem fetchOutsideMemoryHalts : Obligations.FetchOutsideMemoryHalts := by
  unfold Obligations.FetchOutsideMemoryHalts
  rintro s ⟨hrun, hnext⟩ hpc
  obtain ⟨info, hf, hinfo⟩ := State.fetch_error_of_outside hpc
  have htick := cpuTick_fetch_error (s := s.takeEvent) (by simpa using hrun) (by simpa using hf)
  exact ⟨_, info, (step_cpu hnext).trans htick, rfl, hinfo,
    ((ChangesOnly.refl s _).takeEvent (.inr rfl)).writeStatus (.inl rfl)⟩

/-! ## Data out of range (R50) -/

/-- Out of range, an instruction with a range check halts the core with 0x1000, whatever it would have written. -/
theorem State.ifInRange_halts {n : Nat} (hn : n ≠ 0) (h : 0xFFF < s.i.toNat + (n - 1)) :
    s.ifInRange n t = .next { s with status := .halt .addressOutOfRange 0x1000 } := by
  have hout : ¬ s.dataInRange n = true := by rw [State.dataInRange_iff]; omega
  exact State.ifInRange_of_false (eq_false_of_ne_true hout)

/-- Settles O42: each of the four instructions is a range check of its bytes from `I`. -/
theorem dataOutOfRangeHaltsBeforeAnyWrite : Obligations.DataOutOfRangeHaltsBeforeAnyWrite := by
  unfold Obligations.DataOutOfRangeHaltsBeforeAnyWrite
  intro s x y n
  refine ⟨fun h => ?ldB, fun h => ⟨?storeRegs, ?loadRegs⟩, fun hn h => ?drw⟩
  case ldB => exact State.ifInRange_halts (by decide) h
  case storeRegs => exact State.ifInRange_halts (Nat.succ_ne_zero _) h
  case loadRegs => exact State.ifInRange_halts (Nat.succ_ne_zero _) h
  case drw => exact State.ifInRange_halts (by omega) (by omega)

/-! ## A store over the next instruction (R54) -/

/-- `Fx55` in range (R134). -/
theorem exec_storeRegs_of_inRange {x : Reg} (h : s.i.toNat + x.toNat ≤ 0xFFF) :
    exec (.storeRegs x) s = .next (s.storeBlock (x.toNat + 1)).advance :=
  State.ifInRange_of_true (State.dataInRange_succ.mpr h)

/-- Settles O43: the next fetch is at `I`, where the store block has put `V[0]` and `V[1]`. -/
theorem storedRegistersAreFetchedNext : Obligations.StoredRegistersAreFetchedNext := by
  unfold Obligations.StoredRegistersAreFetchedNext
  intro s t x hmem hx hrange hpc h
  rw [exec_storeRegs_of_inRange hrange] at h
  obtain rfl := Host.Outcome.next.inj h
  have hnext : (s.storeBlock (x.toNat + 1)).advance.pc.toNat = s.i.toNat := by
    rw [State.advance_pc, State.storeBlock_pc]
    bv_omega
  have hhi : (s.storeBlock (x.toNat + 1)).advance.readByte s.i.toNat = s.readV 0 :=
    State.storeBlock_readByte (k := 0) hmem (.inr hrange) (by omega)
  have hlo : (s.storeBlock (x.toNat + 1)).advance.readByte (s.i.toNat + 1) = s.readV 1 :=
    State.storeBlock_readByte (k := 1) hmem (.inr hrange) (by omega)
  exact ⟨_, State.fetch_ok (by omega), by rw [wordOfBytes_toNat, hnext, hhi, hlo]⟩

end Sys2Proof.Machine
end

section
/-! PROOFS. Decoding and encoding are inverse, and the words of the instructions are the words the table admits
(30_encoding.md R61, R63, R64, R65). -/

namespace Sys2Proof

variable {op : Word} {m n : BitVec 4} {kk : Byte}

/-! ## Decode after encode -/

/-- The two exact words lie in major 0x0, so a word of another major goes to the nibble dispatch (R63). -/
theorem decodeWord_of_opMajor_ne_zero (h : opMajor op ≠ 0) : decodeWord op = decodeMajor op := by
  have hcls : op ≠ 0x00E0#16 := fun hop => h (hop ▸ rfl)
  have hret : op ≠ 0x00EE#16 := fun hop => h (hop ▸ rfl)
  rw [decodeWord, if_neg hcls, if_neg hret]

/-- The fields the dispatch looks at and the operands are those the instruction's format was laid out with. -/
theorem decodeWord_encode (i : Instr) : decodeWord (encode i) = .ok i := by
  cases i with
  | cls => rfl
  | ret => rfl
  | _ =>
    rw [decodeWord_of_opMajor_ne_zero (by simp [encode])]
    simp [encode, decodeMajor, decodeMajor8, decodeMajorE, decodeMajorF]

theorem decodeBytes_of_decodeWord {i : Instr} (h : decodeWord op = .ok i) (rest : List Byte) :
    decodeBytes (highByte op :: lowByte op :: rest) = .ok (i, rest) := by
  simp only [decodeBytes, wordOfBytes_highByte_lowByte, h]

/-- Settles O3: by the constructor of the instruction; the two bytes make the word again. -/
theorem decodeOfEncodeIsTheInstruction : Obligations.DecodeOfEncodeIsTheInstruction := by
  unfold Obligations.DecodeOfEncodeIsTheInstruction
  exact fun i rest => ⟨decodeWord_encode i, decodeBytes_of_decodeWord (decodeWord_encode i) rest⟩

/-! ## Encode after decode -/

theorem formatA_of_fields (hm : opMajor op = m) : formatA m (opNNN op) = op := hm ▸ formatA_fields op

theorem formatXK_of_fields (hm : opMajor op = m) (hkk : opKK op = kk) : formatXK m (opX op) kk = op :=
  hm ▸ hkk ▸ formatXK_fields op

theorem formatXYN_of_fields (hm : opMajor op = m) (hn : opN op = n) : formatXYN m (opX op) (opY op) n = op :=
  hm ▸ hn ▸ formatXYN_fields op

/-- What an answer of the decoder says of the word: it is the word of the instruction, or it is the one the error names. -/
def AnswerFor (op : Word) : Except DecodeError Instr → Prop
  | .ok i => encode i = op
  | .error e => e = .unknownOpcode op

theorem decodeMajor8_answerFor (hm : opMajor op = 0x8#4) : AnswerFor op (decodeMajor8 op) := by
  unfold decodeMajor8
  split
  case h_10 => exact rfl
  all_goals exact formatXYN_of_fields hm ‹opN op = _›

theorem decodeMajorE_answerFor (hm : opMajor op = 0xE#4) : AnswerFor op (decodeMajorE op) := by
  unfold decodeMajorE
  split
  case h_3 => exact rfl
  all_goals exact formatXK_of_fields hm ‹opKK op = _›

theorem decodeMajorF_answerFor (hm : opMajor op = 0xF#4) : AnswerFor op (decodeMajorF op) := by
  unfold decodeMajorF
  split
  case h_10 => exact rfl
  all_goals exact formatXK_of_fields hm ‹opKK op = _›

/-- An arm that decodes only where the low nibble is 0 (5xy0, 9xy0). -/
theorem answerFor_ite_opN {i : Instr} (h : opN op = 0x0#4 → encode i = op) :
    AnswerFor op (if opN op = 0x0#4 then .ok i else .error (.unknownOpcode op)) := by
  split
  · exact h ‹_›
  · exact rfl

theorem decodeMajor_answerFor (op : Word) : AnswerFor op (decodeMajor op) := by
  unfold decodeMajor
  split
  case h_1 hm | h_2 hm | h_10 hm | h_11 hm => exact formatA_of_fields hm
  case h_3 hm | h_4 hm | h_6 hm | h_7 hm | h_12 hm => exact formatXK_of_fields hm rfl
  case h_5 hm | h_9 hm => exact answerFor_ite_opN (formatXYN_of_fields hm)
  case h_8 hm => exact decodeMajor8_answerFor hm
  case h_13 hm => exact formatXYN_of_fields hm rfl
  case h_14 hm => exact decodeMajorE_answerFor hm
  case h_15 hm => exact decodeMajorF_answerFor hm
  case h_16 => exact rfl

theorem decodeWord_answerFor (op : Word) : AnswerFor op (decodeWord op) := by
  unfold decodeWord
  split
  · next hcls => exact hcls.symm
  · split
    · next hret => exact hret.symm
    · exact decodeMajor_answerFor op

theorem encode_of_decodeWord {i : Instr} (h : decodeWord op = .ok i) : encode i = op := by
  simpa only [h, AnswerFor] using decodeWord_answerFor op

theorem decodeWord_error {e : DecodeError} (h : decodeWord op = .error e) : e = .unknownOpcode op := by
  simpa only [h, AnswerFor] using decodeWord_answerFor op

/-- Settles O4: along the dispatch; each arm fixes the fields its instruction does not hold. -/
theorem encodeOfDecodeIsTheWord : Obligations.EncodeOfDecodeIsTheWord := by
  unfold Obligations.EncodeOfDecodeIsTheWord
  exact fun _ _ => encode_of_decodeWord

/-! ## The words a row of the table selects (R64) -/

theorem OpcodeRow.selects_iff {r : OpcodeRow} : r.selects op = true ↔ op &&& r.mask = r.pat := beq_iff_eq

theorem formatA_of_major (h : op &&& 0xF000#16 = formatA m 0) : formatA m (opNNN op) = op := by
  rw [← formatA_fields op, formatA_major] at h
  exact formatA_of_fields (by simpa using congrArg opMajor h)

theorem formatXK_of_major (h : op &&& 0xF000#16 = formatXK m 0 0) : formatXK m (opX op) (opKK op) = op := by
  rw [← formatXK_fields op, formatXK_major] at h
  exact formatXK_of_fields (by simpa using congrArg opMajor h) rfl

theorem formatXK_of_minor (h : op &&& 0xF0FF#16 = formatXK m 0 kk) : formatXK m (opX op) kk = op := by
  rw [← formatXK_fields op, formatXK_minor] at h
  exact formatXK_of_fields (by simpa using congrArg opMajor h) (by simpa using congrArg opKK h)

theorem formatXYN_of_major (h : op &&& 0xF000#16 = formatXYN m 0 0 0) : formatXYN m (opX op) (opY op) (opN op) = op := by
  rw [← formatXYN_fields op, formatXYN_major] at h
  exact formatXYN_of_fields (by simpa using congrArg opMajor h) rfl

theorem formatXYN_of_minor (h : op &&& 0xF00F#16 = formatXYN m 0 0 n) : formatXYN m (opX op) (opY op) n = op := by
  rw [← formatXYN_fields op, formatXYN_minor] at h
  exact formatXYN_of_fields (by simpa using congrArg opMajor h) (by simpa using congrArg opN h)

theorem word_of_exact {pat : Word} (h : op &&& 0xFFFF#16 = pat) : pat = op :=
  h.symm.trans (BitVec.and_allOnes (x := op))

/-! The four parts of the table, row by row: a word the row selects is the word of the row's instruction, with the operands in the bits
the mask leaves open. -/

theorem exists_encode_of_exactAndFlowRow : ∀ r ∈ exactAndFlowRows, op &&& r.mask = r.pat → ∃ i, encode i = op := by
  simp only [exactAndFlowRows, List.forall_mem_cons]
  exact ⟨fun h => ⟨.cls, word_of_exact h⟩, fun h => ⟨.ret, word_of_exact h⟩, fun h => ⟨.jp _, formatA_of_major h⟩,
    fun h => ⟨.call _, formatA_of_major h⟩, fun h => ⟨.seByte _ _, formatXK_of_major h⟩,
    fun h => ⟨.sneByte _ _, formatXK_of_major h⟩, fun h => ⟨.seReg _ _, formatXYN_of_minor h⟩,
    fun h => ⟨.ldByte _ _, formatXK_of_major h⟩, fun h => ⟨.addByte _ _, formatXK_of_major h⟩, List.forall_mem_nil _⟩

theorem exists_encode_of_regRegRow : ∀ r ∈ regRegRows, op &&& r.mask = r.pat → ∃ i, encode i = op := by
  simp only [regRegRows, List.forall_mem_cons]
  exact ⟨fun h => ⟨.ldReg _ _, formatXYN_of_minor h⟩, fun h => ⟨.orReg _ _, formatXYN_of_minor h⟩,
    fun h => ⟨.andReg _ _, formatXYN_of_minor h⟩, fun h => ⟨.xorReg _ _, formatXYN_of_minor h⟩,
    fun h => ⟨.addReg _ _, formatXYN_of_minor h⟩, fun h => ⟨.sub _ _, formatXYN_of_minor h⟩,
    fun h => ⟨.shr _ _, formatXYN_of_minor h⟩, fun h => ⟨.subn _ _, formatXYN_of_minor h⟩,
    fun h => ⟨.shl _ _, formatXYN_of_minor h⟩, fun h => ⟨.sneReg _ _, formatXYN_of_minor h⟩, List.forall_mem_nil _⟩

theorem exists_encode_of_majorAtoERow : ∀ r ∈ majorAtoERows, op &&& r.mask = r.pat → ∃ i, encode i = op := by
  simp only [majorAtoERows, List.forall_mem_cons]
  exact ⟨fun h => ⟨.ldI _, formatA_of_major h⟩, fun h => ⟨.jpV0 _, formatA_of_major h⟩,
    fun h => ⟨.rnd _ _, formatXK_of_major h⟩, fun h => ⟨.drw _ _ _, formatXYN_of_major h⟩,
    fun h => ⟨.skp _, formatXK_of_minor h⟩, fun h => ⟨.sknp _, formatXK_of_minor h⟩, List.forall_mem_nil _⟩

theorem exists_encode_of_majorFRow : ∀ r ∈ majorFRows, op &&& r.mask = r.pat → ∃ i, encode i = op := by
  simp only [majorFRows, List.forall_mem_cons]
  exact ⟨fun h => ⟨.ldVxDT _, formatXK_of_minor h⟩, fun h => ⟨.ldVxK _, formatXK_of_minor h⟩,
    fun h => ⟨.ldDTVx _, formatXK_of_minor h⟩, fun h => ⟨.ldSTVx _, formatXK_of_minor h⟩,
    fun h => ⟨.addI _, formatXK_of_minor h⟩, fun h => ⟨.ldF _, formatXK_of_minor h⟩,
    fun h => ⟨.ldB _, formatXK_of_minor h⟩, fun h => ⟨.storeRegs _, formatXK_of_minor h⟩,
    fun h => ⟨.loadRegs _, formatXK_of_minor h⟩, List.forall_mem_nil _⟩

theorem exists_encode_of_wordWellFormed (h : wordWellFormed op = true) : ∃ i, encode i = op := by
  obtain ⟨r, hr, hsel⟩ := List.any_eq_true.mp h
  rw [OpcodeRow.selects_iff] at hsel
  simp only [opcodeTable, List.mem_append] at hr
  obtain ((hr | hr) | hr) | hr := hr
  · exact exists_encode_of_exactAndFlowRow r hr hsel
  · exact exists_encode_of_regRegRow r hr hsel
  · exact exists_encode_of_majorAtoERow r hr hsel
  · exact exists_encode_of_majorFRow r hr hsel

open Laws.Encodes in
/-- The family `Encodes`, put together over the constructors. -/
theorem wordWellFormed_encode (i : Instr) : wordWellFormed (encode i) = true :=
  Instr.rec (motive := Statement) cls ret jp call seByte sneByte seReg ldByte addByte ldReg orReg andReg xorReg addReg sub shr subn
    shl sneReg ldI jpV0 rnd drw skp sknp ldVxDT ldVxK ldDTVx ldSTVx addI ldF ldB storeRegs loadRegs i

/-- Settles O5: the words some row selects are the words of the instructions, and those the decoder gives back. -/
theorem decoderAcceptsExactlyTheTableWords : Obligations.DecoderAcceptsExactlyTheTableWords := by
  unfold Obligations.DecoderAcceptsExactlyTheTableWords
  refine fun op => ⟨fun h => ?accepts, fun h => ?rejects⟩
  case accepts =>
    obtain ⟨i, rfl⟩ := exists_encode_of_wordWellFormed h
    exact ⟨i, decodeWord_encode i⟩
  case rejects =>
    cases hd : decodeWord op with
    | error e => rw [decodeWord_error hd]
    | ok i =>
      have hwf := wordWellFormed_encode i
      rw [encode_of_decodeWord hd, h] at hwf
      exact absurd hwf Bool.false_ne_true

/-! ## Two rows of the table (R63) -/

/-- Two rows that both select a word agree on the bits both masks keep. -/
theorem OpcodeRow.pat_and_mask_of_selects {a b : OpcodeRow} (ha : a.selects op = true) (hb : b.selects op = true) :
    a.pat &&& b.mask = b.pat &&& a.mask := by
  rw [OpcodeRow.selects_iff] at ha hb
  rw [← ha, ← hb, BitVec.and_assoc, BitVec.and_assoc, BitVec.and_comm a.mask]

theorem opcodeTable_pairwise_pat_and_mask_ne :
    opcodeTable.Pairwise fun a b => a.pat &&& b.mask ≠ b.pat &&& a.mask := by decide

/-- Settles O6: any two rows of the table differ in a bit both masks keep. -/
theorem noWordMatchesTwoTableRows : Obligations.NoWordMatchesTwoTableRows := by
  unfold Obligations.NoWordMatchesTwoTableRows
  exact opcodeTable_pairwise_pat_and_mask_ne.imp fun hne _ ⟨ha, hb⟩ => hne (OpcodeRow.pat_and_mask_of_selects ha hb)

/-! ## Fields and words written out (R61, R64) -/

/-- Settles O1: every field as a number, then the two overlaps by arithmetic. -/
theorem fieldsAreTheBitsOfTheWord : Obligations.FieldsAreTheBitsOfTheWord := by
  unfold Obligations.FieldsAreTheBitsOfTheWord
  refine fun op => ⟨opMajor_toNat op, opX_toNat op, opY_toNat op, opN_toNat op, opKK_toNat op, opNNN_toNat op, ?kk, ?nnn⟩
  case kk => rw [opKK_toNat, opY_toNat, opN_toNat]; omega
  case nnn => rw [opNNN_toNat, opX_toNat, opKK_toNat]; omega

/-- Settles O2: each word is the encoding of its instruction. -/
theorem wordsWrittenOutDecode : Obligations.WordsWrittenOutDecode := by
  unfold Obligations.WordsWrittenOutDecode
  exact ⟨decodeWord_encode .cls, decodeWord_encode .ret, decodeWord_encode (.call 0xABC), decodeWord_encode (.addByte 0x3 0x5A),
    decodeWord_encode (.sub 0x1 0xF), decodeWord_encode (.sneReg 0x1 0x2), decodeWord_encode (.drw 0xD 0x2 0x7),
    decodeWord_encode (.sknp 0x4), decodeWord_encode (.loadRegs 0xA)⟩

end Sys2Proof
end

section
/-! PROOFS. A CPU tick on a word no row of the table selects halts the core with that word (30_encoding.md R65, 60_exceptions.md R166). -/

namespace Sys2Proof.Machine

variable {s : State}

/-- A CPU tick of a running core whose word at `pc` does not decode. -/
theorem cpuTick_unknown {e : DecodeError} (hrun : s.status = .run) (hpc : s.pc.toNat ≤ 0xFFE)
    (hdecode : decodeWord s.wordAtPc = .error e) : cpuTick s = s.raise ⟨.unknownOpcode, s.wordAtPc⟩ := by
  have hf : s.fetch = .ok s.wordAtPc := State.fetch_ok hpc
  simp only [cpuTick, hrun, hf, decodeAndExecute, hdecode]

/-- Settles O10: the step is the tick on the state without the event; by O5 the word does not decode, which writes STATUS alone. -/
theorem unknownWordHalts : Obligations.UnknownWordHalts := by
  unfold Obligations.UnknownWordHalts
  rintro s ⟨hrun, hnext⟩ hpc hunknown
  have hdecode := (decoderAcceptsExactlyTheTableWords s.wordAtPc).2 hunknown
  have htick := cpuTick_unknown (s := s.takeEvent) (by simpa using hrun) (by simpa using hpc) (by simpa using hdecode)
  exact ⟨_, (step_cpu hnext).trans htick, by rw [State.takeEvent_wordAtPc],
    ((ChangesOnly.refl s _).takeEvent (.inr rfl)).writeStatus (.inl rfl)⟩

end Sys2Proof.Machine
end

section
/-! PROOFS. Jumps, call and return: where `pc` goes, what the stack holds after, and that a return undoes its call (40_flow.md R80 to
R83). -/

namespace Sys2Proof.Machine

/-! ## Targets as numbers (R11, R83) -/

theorem absolute_toNat (nnn : BitVec 12) : (absolute nnn).toNat = nnn.toNat :=
  BitVec.toNat_setWidth_of_le (by decide)

/-- The sum of 12 bits and 8 bits fits in 16, so it is not truncated (decision D1). -/
theorem absolute_add_zextByte_toNat (nnn : BitVec 12) (b : Byte) :
    (absolute nnn + zextByte b).toNat = nnn.toNat + b.toNat := by
  have hb : (zextByte b).toNat = b.toNat := BitVec.toNat_setWidth_of_le (by decide)
  rw [BitVec.toNat_add, absolute_toNat, hb]
  omega

/-! ## Jumps (R81, R83) -/

theorem State.writePc_self (s : State) : s.writePc s.pc = s := rfl

/-- A write of `pc` changes `pc` alone. -/
theorem State.writePc_changesOnly (s : State) (a : Word) : ChangesOnly s (s.writePc a) (fun p => p = .pc) :=
  (ChangesOnly.refl s _).writePc rfl

/-- Settles O19: the state jumped to is `s` with `pc` written; the corner cases are that write of `pc` itself and of 0xFFF. -/
theorem jumpSetsPc : Obligations.JumpSetsPc := by
  unfold Obligations.JumpSetsPc
  refine fun s nnn => ⟨decodeWord_encode (.jp nnn), s.writePc (absolute nnn), rfl, absolute_toNat nnn,
    s.writePc_changesOnly _, fun hself => ?toItself, fun hlast => ?toLastAddress⟩
  case toItself =>
    have htarget : absolute nnn = s.pc := BitVec.eq_of_toNat_eq ((absolute_toNat nnn).trans hself)
    rw [htarget, s.writePc_self]
  case toLastAddress =>
    exact State.fetch_error_last ((absolute_toNat nnn).trans (congrArg BitVec.toNat hlast))

/-- Settles O20: the state jumped to is `s` with `pc` written, and the target is the exact sum. -/
theorem jumpWithOffsetAddsV0 : Obligations.JumpWithOffsetAddsV0 := by
  unfold Obligations.JumpWithOffsetAddsV0
  exact fun s nnn => ⟨decodeWord_encode (.jpV0 nnn), _, rfl, absolute_add_zextByte_toNat nnn (s.readV 0),
    s.writePc_changesOnly _⟩

/-! ## Call and return (R80, R82) -/

/-- Settles O21: the answer of a call with room on the stack, and the frames of its three writes. -/
theorem callPushesItsOwnAddress : Obligations.CallPushesItsOwnAddress := by
  unfold Obligations.CallPushesItsOwnAddress
  intro s nnn hroom
  have hentry := (ChangesOnly.refl s (fun p => p = .pc ∨ p = .sp ∨ p = .stackEntry ⟨s.sp.val, hroom⟩)).writeStack
    (k := ⟨s.sp.val, hroom⟩) (a := s.pc) (.inr (.inr rfl))
  exact ⟨_, exec_call_of_lt nnn hroom, Vector.getElem_set_self hroom, rfl, absolute_toNat nnn,
    (hentry.writeSp (.inr (.inl rfl))).writePc (.inl rfl)⟩

/-- Settles O22: the answer of a return with `k + 1` entries; the entry popped is that at `k`. -/
theorem returnContinuesAfterTheCall : Obligations.ReturnContinuesAfterTheCall := by
  unfold Obligations.ReturnContinuesAfterTheCall
  intro s k hsp
  have htop : s.sp.val - 1 = k.val := by omega
  refine ⟨_, exec_ret_of_pos (by omega), ?_, htop, ?_⟩
  · simp only [State.advance_pc, State.writePc_pc, htop]
  · exact (((ChangesOnly.refl s _).writeSp (.inr rfl)).writePc (.inl rfl)).advance (.inl rfl)

/-- Settles O24: by O22 the return pops the entry that by O21 the call pushed, and their frames keep the entries below it. -/
theorem returnUndoesCall : Obligations.ReturnUndoesCall := by
  unfold Obligations.ReturnUndoesCall
  intro s t nnn hroom hcall
  obtain ⟨t', hcall', hpushed, hdeeper, -, hcallFrame⟩ := callPushesItsOwnAddress s nnn hroom
  obtain rfl : t' = t := Host.Outcome.next.inj (hcall'.symm.trans hcall)
  obtain ⟨u, hret, hpc, hsp, hretFrame⟩ := returnContinuesAfterTheCall t' ⟨s.sp.val, hroom⟩ hdeeper
  refine ⟨u, hret, hpushed ▸ hpc, Fin.ext hsp, fun k hk => ?_⟩
  have hcallKeeps : t'.stack[k.val] = s.stack[k.val] := hcallFrame (.stackEntry k) (by simp [Fin.ext_iff, Nat.ne_of_lt hk])
  have hretKeeps : u.stack[k.val] = t'.stack[k.val] := hretFrame (.stackEntry k) (by simp)
  exact hretKeeps.trans hcallKeeps

end Sys2Proof.Machine
end

section
/-! PROOFS. The skips on registers: where `pc` goes when the skip is taken and when it is not, and that nothing else changes (41_skip.md
R90 to R94). -/

namespace Sys2Proof.Machine

variable {s t : State} {c : Bool} {a b : Byte}

/-! ## A skip (R94) -/

/-- A skip changes `pc` alone, taken or not. -/
theorem State.skipIf_changesOnly (s : State) (c : Bool) : ChangesOnly s (s.skipIf c) (fun p => p = .pc) :=
  s.writePc_changesOnly _

theorem State.skipIf_pc_of_taken (hc : c = true) : (s.skipIf c).pc = s.pc + 4 := if_pos hc

theorem State.skipIf_pc_of_not_taken (hc : ¬ c = true) : (s.skipIf c).pc = s.pc + 2 := if_neg hc

/-- R90 (d): a skip taken from the last word of memory is not truncated (decision D1), and the fault comes at the next fetch. -/
theorem State.fetch_error_of_skip_from_last_word (hskip : t.pc = s.pc + 4) (hlast : s.pc = 0xFFE) :
    t.pc = 0x1002 ∧ t.fetch = .error ⟨.addressOutOfRange, 0x1002⟩ := by
  have hpc : t.pc = 0x1002 := by rw [hskip, hlast]; rfl
  have hfetch := State.fetch_error (s := t) (by rw [hpc]; decide)
  exact ⟨hpc, by rw [hfetch, hpc]⟩

/-! ## The two comparisons, of bytes as unsigned numbers (R90 (a)) -/

theorem byte_beq_iff : (a == b) = true ↔ a.toNat = b.toNat := beq_iff_eq.trans BitVec.toNat_inj.symm

theorem byte_bne_iff : (a != b) = true ↔ a.toNat ≠ b.toNat := bne_iff_ne.trans BitVec.toNat_inj.symm.not

theorem State.skipIf_beq_pc_of_eq (heq : a.toNat = b.toNat) : (s.skipIf (a == b)).pc = s.pc + 4 :=
  State.skipIf_pc_of_taken (byte_beq_iff.mpr heq)

theorem State.skipIf_beq_pc_of_ne (hne : a.toNat ≠ b.toNat) : (s.skipIf (a == b)).pc = s.pc + 2 :=
  State.skipIf_pc_of_not_taken (mt byte_beq_iff.mp hne)

theorem State.skipIf_bne_pc_of_ne (hne : a.toNat ≠ b.toNat) : (s.skipIf (a != b)).pc = s.pc + 4 :=
  State.skipIf_pc_of_taken (byte_bne_iff.mpr hne)

theorem State.skipIf_bne_pc_of_eq (heq : a.toNat = b.toNat) : (s.skipIf (a != b)).pc = s.pc + 2 :=
  State.skipIf_pc_of_not_taken fun hc => byte_bne_iff.mp hc heq

/-! ## The immediate (R90, R91) -/

/-- Settles O25: each is the skip on its comparison; taken at 0xFFE, it goes past the last address a fetch can succeed at. -/
theorem skipsOnAnImmediate : Obligations.SkipsOnAnImmediate := by
  unfold Obligations.SkipsOnAnImmediate
  refine fun s x kk => ⟨decodeWord_encode (.seByte x kk), decodeWord_encode (.sneByte x kk),
    ⟨_, rfl, s.skipIf_changesOnly _, fun heq => ?seTaken, State.skipIf_beq_pc_of_ne⟩,
    ⟨_, rfl, s.skipIf_changesOnly _, fun hne => ?sneTaken, State.skipIf_bne_pc_of_eq⟩⟩
  case seTaken =>
    have hskip := State.skipIf_beq_pc_of_eq (s := s) heq
    exact ⟨hskip, State.fetch_error_of_skip_from_last_word hskip⟩
  case sneTaken =>
    have hskip := State.skipIf_bne_pc_of_ne (s := s) hne
    exact ⟨hskip, State.fetch_error_of_skip_from_last_word hskip⟩

/-! ## Two registers (R92, R93) -/

/-- A word of major 0x5 or 0x9 whose low nibble is not 0 is no instruction (R63). -/
theorem decodeWord_formatXYN_of_ne_zero {m n : BitVec 4} (x y : Reg) (hm : m = 0x5 ∨ m = 0x9) (hn : n ≠ 0) :
    decodeWord (formatXYN m x y n) = .error (.unknownOpcode (formatXYN m x y n)) := by
  obtain rfl | rfl := hm
  all_goals
    rw [decodeWord_of_opMajor_ne_zero (by simp)]
    simpa [decodeMajor] using hn

/-- Settles O26: each is the skip on its comparison, and a register equals itself. -/
theorem skipsOnTwoRegisters : Obligations.SkipsOnTwoRegisters := by
  unfold Obligations.SkipsOnTwoRegisters
  intro s x y n
  have hself (hxy : x = y) : (s.readV x).toNat = (s.readV y).toNat := by rw [hxy]
  refine ⟨decodeWord_encode (.seReg x y), decodeWord_encode (.sneReg x y), fun hn => ⟨?unknown5, ?unknown9⟩,
    ⟨_, rfl, s.skipIf_changesOnly _, State.skipIf_beq_pc_of_eq, State.skipIf_beq_pc_of_ne,
      fun hxy => State.skipIf_beq_pc_of_eq (hself hxy)⟩,
    ⟨_, rfl, s.skipIf_changesOnly _, State.skipIf_bne_pc_of_ne, State.skipIf_bne_pc_of_eq,
      fun hxy => State.skipIf_bne_pc_of_eq (hself hxy)⟩⟩
  case unknown5 => exact decodeWord_formatXYN_of_ne_zero x y (.inl rfl) hn
  case unknown9 => exact decodeWord_formatXYN_of_ne_zero x y (.inr rfl) hn

end Sys2Proof.Machine
end

section
/-! PROOFS. The immediates: the register `x` gets the byte or the sum, and nothing else but `pc` changes (42_immediate.md R100, R101). -/

namespace Sys2Proof.Machine

/-! ## An instruction that writes one register and goes on -/

/-- A register written with its own value is no change. -/
theorem State.writeV_readV_self (s : State) (x : Reg) : s.writeV x (s.readV x) = s :=
  congrArg (fun v => { s with v := v }) (Vector.set_getElem_self (Reg.lt x))

/-- The frame of a write of `V[x]` before the step to the next instruction. -/
theorem State.writeV_advance_changesOnly (s : State) (x : Reg) (b : Byte) :
    ChangesOnly s (s.writeV x b).advance (fun p => p = .pc ∨ p = .reg x) :=
  ((ChangesOnly.refl s _).writeV (.inr rfl)).advance (.inl rfl)

/-- Settles O28: the state it answers is `s` with `V[x]` written and `pc` advanced. -/
theorem loadImmediateSetsVx : Obligations.LoadImmediateSetsVx := by
  unfold Obligations.LoadImmediateSetsVx
  exact fun s x kk => ⟨decodeWord_encode (.ldByte x kk), (s.writeV x kk).advance, rfl, s.writeV_readV_same x kk, rfl,
    s.writeV_advance_changesOnly x kk⟩

/-! ## The sum (R101) -/

/-- R101 (b): adding `b` modulo 256 is subtracting `256 - b`. -/
theorem byte_toNat_add_eq_sub (a b : Byte) : (a + b).toNat = (a.toNat + 256 - (256 - b.toNat)) % 256 := by
  rw [BitVec.toNat_add]
  omega

/-- Settles O29: the state it answers is `s` with the sum in `V[x]` and `pc` advanced, and adding 0 writes what stood in `V[x]`. -/
theorem addImmediateIsModulo256AndWritesNoFlag : Obligations.AddImmediateIsModulo256AndWritesNoFlag := by
  unfold Obligations.AddImmediateIsModulo256AndWritesNoFlag
  intro s x kk
  have hsum : (s.writeV x (s.readV x + kk)).advance.readV x = s.readV x + kk := s.writeV_readV_same x _
  refine ⟨decodeWord_encode (.addByte x kk), _, rfl, ?modulo, rfl, s.writeV_advance_changesOnly x _,
    s.writeV_readV_of_ne x VF _, ?subtracts, fun hzero => ?addsZero⟩
  case modulo => rw [hsum, BitVec.toNat_add]
  case subtracts => rw [hsum, byte_toNat_add_eq_sub]
  case addsZero =>
    have hsame : s.readV x + kk = s.readV x := hzero ▸ BitVec.add_zero _
    rw [hsame, s.writeV_readV_self]
    exact s.writePc_changesOnly _

end Sys2Proof.Machine
end

section
/-! PROOFS. The register-register instructions: copy and logic write `V[x]` alone; the arithmetic ones write the flag to VF first, then
a result which reads what the flag has left (43_alu.md R110 to R120). -/

namespace Sys2Proof.Machine

/-! ## Copy and logic (R110 to R113) -/

/-- What `V[x]` holds after a write of `V[x]` and the step to the next instruction. -/
theorem State.writeV_advance_readV_same (s : State) (x : Reg) (b : Byte) : (s.writeV x b).advance.readV x = b :=
  s.writeV_readV_same x b

/-- Settles O30: each state answered is `s` with `V[x]` written and `pc` advanced; the cases `x = y` are the laws of a byte with
itself. -/
theorem copyAndLogicWriteVxOnly : Obligations.CopyAndLogicWriteVxOnly := by
  unfold Obligations.CopyAndLogicWriteVxOnly
  intro s x y
  have hresult := s.writeV_advance_readV_same x
  have hframe := s.writeV_advance_changesOnly x
  refine ⟨⟨decodeWord_encode (.ldReg x y), _, rfl, hresult _, rfl, hframe _, fun hxy => ?copySelf⟩,
    ⟨decodeWord_encode (.orReg x y), _, rfl, fun k => ?orBits, rfl, hframe _, fun hxy => ?orSelf⟩,
    ⟨decodeWord_encode (.andReg x y), _, rfl, fun k => ?andBits, rfl, hframe _, fun hxy => ?andSelf⟩,
    ⟨decodeWord_encode (.xorReg x y), _, rfl, fun k => ?xorBits, rfl, hframe _, fun hxy => ?xorSelf⟩⟩
  case copySelf =>
    rw [← hxy, s.writeV_readV_self]
    exact s.writePc_changesOnly _
  case orBits => rw [hresult, BitVec.getLsbD_or]
  case orSelf => rw [hresult, ← hxy, BitVec.or_self]
  case andBits => rw [hresult, BitVec.getLsbD_and]
  case andSelf => rw [hresult, ← hxy, BitVec.and_self]
  case xorBits => rw [hresult, BitVec.getLsbD_xor]
  case xorSelf => rw [hresult, ← hxy, BitVec.xor_self]; rfl

/-! ## A flag written, then a result (R120, decision D3) -/

section FlagThenResult

variable (s : State) (f b : Byte) {x : Reg}

/-- An operand read after the flag is the flag when it names VF. -/
theorem State.writeFlag_readV_VF : (s.writeFlag f).readV VF = f := s.writeV_readV_same VF f

/-- An operand read after the flag is its old value when it does not name VF. -/
theorem State.writeFlag_readV_of_ne (h : x ≠ VF) : (s.writeFlag f).readV x = s.readV x := s.writeV_readV_of_ne VF x f h.symm

/-- The flag stays in VF unless the result overwrites it. -/
theorem State.writeFlag_writeV_advance_readV_VF (h : x ≠ VF) : ((s.writeFlag f).writeV x b).advance.readV VF = f :=
  ((s.writeFlag f).writeV_readV_of_ne x VF b h).trans (s.writeFlag_readV_VF f)

theorem State.writeFlag_writeV_advance_changesOnly (x : Reg) :
    ChangesOnly s ((s.writeFlag f).writeV x b).advance (fun p => p = .pc ∨ p = .reg x ∨ p = .reg VF) :=
  (((ChangesOnly.refl s _).writeV (.inr (.inr rfl))).writeV (.inr (.inl rfl))).advance (.inl rfl)

end FlagThenResult

/-! ## The flags and the results as numbers (R114 to R119) -/

theorem carryFlag_of_gt {sum : Nat} (h : sum > 255) : carryFlag sum = 1 := by
  rw [carryFlag, decide_eq_true h, flagByte, if_pos rfl]

theorem carryFlag_of_le {sum : Nat} (h : sum ≤ 255) : carryFlag sum = 0 := by
  rw [carryFlag, decide_eq_false (Nat.not_lt.mpr h), flagByte, if_neg Bool.false_ne_true]

theorem notBorrowFlag_toNat (a b : Byte) : (notBorrowFlag a b).toNat = if b.toNat > a.toNat then 0 else 1 := by
  by_cases h : b.toNat > a.toNat <;> simp [notBorrowFlag, flagByte, h]

theorem lowBitFlag_toNat (b : Byte) : (lowBitFlag b).toNat = b.toNat % 2 := by
  rw [lowBitFlag, BitVec.toNat_and]
  exact Nat.and_one_is_mod _

theorem highBitFlag_toNat (b : Byte) : (highBitFlag b).toNat = b.toNat / 128 := by
  have hbit : (highBitFlag b).toNat = b.toNat / 128 % 2 := by
    rw [highBitFlag, BitVec.toNat_and, BitVec.toNat_ushiftRight, Nat.shiftRight_eq_div_pow]
    exact Nat.and_one_is_mod _
  omega

theorem byte_toNat_sub (a b : Byte) : (a - b).toNat = (a.toNat + 256 - b.toNat) % 256 := by
  rw [BitVec.toNat_sub]
  omega

theorem byte_toNat_ushiftRight_one (b : Byte) : (b >>> 1).toNat = b.toNat / 2 := by
  rw [BitVec.toNat_ushiftRight, Nat.shiftRight_eq_div_pow]

theorem byte_toNat_shiftLeft_one (b : Byte) : (b <<< 1).toNat = b.toNat * 2 % 256 := by
  rw [BitVec.toNat_shiftLeft, Nat.shiftLeft_eq]

/-! ## The sum (R114) -/

/-- Settles O31: the sum is of the old values and written last, so it overwrites the carry when `x` names VF. -/
theorem addWritesSumAndCarry : Obligations.AddWritesSumAndCarry := by
  unfold Obligations.AddWritesSumAndCarry
  intro s x y
  refine ⟨decodeWord_encode (.addReg x y), _, rfl, ?sum, fun hx hcarry => ?carry, fun hx hfits => ?noCarry, rfl,
    s.writeFlag_writeV_advance_changesOnly _ _ x⟩
  case sum => rw [State.writeV_advance_readV_same, BitVec.toNat_ofNat]
  case carry => rw [s.writeFlag_writeV_advance_readV_VF _ _ hx, carryFlag_of_gt hcarry]
  case noCarry => rw [s.writeFlag_writeV_advance_readV_VF _ _ hx, carryFlag_of_le hfits]

/-! ## The differences (R115, R117) -/

section Difference

variable (s : State) (f : Byte) {m n : Reg}

/-! `m` names the minuend and `n` the subtrahend, both read after the flag. -/

theorem State.writeFlag_toNat_sub_of_ne (hm : m ≠ VF) (hn : n ≠ VF) :
    ((s.writeFlag f).readV m - (s.writeFlag f).readV n).toNat = ((s.readV m).toNat + 256 - (s.readV n).toNat) % 256 := by
  rw [byte_toNat_sub, s.writeFlag_readV_of_ne f hm, s.writeFlag_readV_of_ne f hn]

theorem State.writeFlag_toNat_sub_VF (hm : m ≠ VF) :
    ((s.writeFlag f).readV m - (s.writeFlag f).readV VF).toNat = ((s.readV m).toNat + 256 - f.toNat) % 256 := by
  rw [byte_toNat_sub, s.writeFlag_readV_of_ne f hm, s.writeFlag_readV_VF]

theorem State.writeFlag_toNat_VF_sub (hn : n ≠ VF) :
    ((s.writeFlag f).readV VF - (s.writeFlag f).readV n).toNat = (f.toNat + 256 - (s.readV n).toNat) % 256 := by
  rw [byte_toNat_sub, s.writeFlag_readV_VF, s.writeFlag_readV_of_ne f hn]

end Difference

/-- Settles O32: `V[x]` is the minuend, `V[y]` the subtrahend; a case for each of them that names VF. -/
theorem subtractWritesDifferenceAndNotBorrow : Obligations.SubtractWritesDifferenceAndNotBorrow := by
  unfold Obligations.SubtractWritesDifferenceAndNotBorrow
  rintro s x y _ _ f rfl rfl hf
  have hflag : (notBorrowFlag (s.readV x) (s.readV y)).toNat = f := (notBorrowFlag_toNat _ _).trans hf.symm
  refine ⟨_, rfl, fun hx => ?flag, fun hx hy => ?neither, fun hx hy => ?subtrahendVF, fun hx hy => ?minuendVF,
    fun hx hy => ?both, rfl, s.writeFlag_writeV_advance_changesOnly _ _ x⟩
  case flag => rw [s.writeFlag_writeV_advance_readV_VF _ _ hx, hflag]
  case neither => rw [State.writeV_advance_readV_same, s.writeFlag_toNat_sub_of_ne _ hx hy]
  case subtrahendVF =>
    subst hy
    rw [State.writeV_advance_readV_same, s.writeFlag_toNat_sub_VF _ hx, hflag]
  case minuendVF =>
    subst hx
    rw [State.writeV_advance_readV_same, s.writeFlag_toNat_VF_sub _ hy, hflag]
  case both =>
    subst hx hy
    rw [State.writeV_advance_readV_same, BitVec.sub_self]; rfl

/-- Settles O33: `V[y]` is the minuend, `V[x]` the subtrahend; a case for each of them that names VF. -/
theorem reverseSubtractWritesDifferenceAndNotBorrow : Obligations.ReverseSubtractWritesDifferenceAndNotBorrow := by
  unfold Obligations.ReverseSubtractWritesDifferenceAndNotBorrow
  rintro s x y _ _ f rfl rfl hf
  have hflag : (notBorrowFlag (s.readV y) (s.readV x)).toNat = f := (notBorrowFlag_toNat _ _).trans hf.symm
  refine ⟨_, rfl, fun hx => ?flag, fun hx hy => ?neither, fun hx hy => ?minuendVF, fun hx hy => ?subtrahendVF,
    fun hx hy => ?both, rfl, s.writeFlag_writeV_advance_changesOnly _ _ x⟩
  case flag => rw [s.writeFlag_writeV_advance_readV_VF _ _ hx, hflag]
  case neither => rw [State.writeV_advance_readV_same, s.writeFlag_toNat_sub_of_ne _ hy hx]
  case minuendVF =>
    subst hy
    rw [State.writeV_advance_readV_same, s.writeFlag_toNat_VF_sub _ hx, hflag]
  case subtrahendVF =>
    subst hx
    rw [State.writeV_advance_readV_same, s.writeFlag_toNat_sub_VF _ hy, hflag]
  case both =>
    subst hx hy
    rw [State.writeV_advance_readV_same, BitVec.sub_self]; rfl

/-! ## The shifts (R116, R118) -/

/-- Settles O34: the register shifted is `V[x]` as it was, or the flag itself when `x` names VF, and a flag halved is 0. -/
theorem shiftRightHalvesVx : Obligations.ShiftRightHalvesVx := by
  unfold Obligations.ShiftRightHalvesVx
  intro s x y
  refine ⟨_, rfl, fun hx => ⟨?halved, ?flag⟩, fun hx => ?ofVF, rfl, s.writeFlag_writeV_advance_changesOnly _ _ x⟩
  case halved => rw [State.writeV_advance_readV_same, s.writeFlag_readV_of_ne _ hx, byte_toNat_ushiftRight_one]
  case flag => rw [s.writeFlag_writeV_advance_readV_VF _ _ hx, lowBitFlag_toNat]
  case ofVF =>
    subst hx
    rw [State.writeV_advance_readV_same, s.writeFlag_readV_VF]
    refine BitVec.eq_of_toNat_eq ?_
    rw [byte_toNat_ushiftRight_one, lowBitFlag_toNat]
    exact Nat.div_eq_of_lt (Nat.mod_lt _ Nat.two_pos)

/-- Settles O35: the register shifted is `V[x]` as it was, or the flag itself when `x` names VF. -/
theorem shiftLeftDoublesVx : Obligations.ShiftLeftDoublesVx := by
  unfold Obligations.ShiftLeftDoublesVx
  intro s x y
  refine ⟨_, rfl, fun hx => ⟨?doubled, ?flag⟩, fun hx => ?ofVF, rfl, s.writeFlag_writeV_advance_changesOnly _ _ x⟩
  case doubled => rw [State.writeV_advance_readV_same, s.writeFlag_readV_of_ne _ hx, byte_toNat_shiftLeft_one]
  case flag => rw [s.writeFlag_writeV_advance_readV_VF _ _ hx, highBitFlag_toNat]
  case ofVF =>
    subst hx
    rw [State.writeV_advance_readV_same, s.writeFlag_readV_VF, byte_toNat_shiftLeft_one, highBitFlag_toNat]
    omega

end Sys2Proof.Machine
end

section
/-! PROOFS. The index register and memory instructions in range: the values of `I` and VF, the digits of Fx33, the blocks of Fx55 and
Fx65 (44_index_memory.md R130 to R136). -/

namespace Sys2Proof.Machine

/-! ## Writing `I` (R22, R130 to R132) -/

/-- The index register keeps the low 12 bits of any number written to it. -/
theorem State.writeI_ofNat_i_toNat (s : State) (n : Nat) : (s.writeI (BitVec.ofNat 16 n)).i.toNat = n % 0x1000 := by
  rw [State.writeI_i, mask12_toNat, BitVec.toNat_ofNat]
  omega

/-- Every `nnn` is a legal value of `I`: the mask leaves it as it is. -/
theorem State.writeI_absolute_i_toNat (s : State) (nnn : BitVec 12) : (s.writeI (absolute nnn)).i.toNat = nnn.toNat := by
  rw [State.writeI_i, mask12_toNat, absolute_toNat]
  exact Nat.mod_eq_of_lt nnn.isLt

/-- The frame of a write of `I` before the step to the next instruction. -/
theorem State.writeI_advance_changesOnly (s : State) (a : Word) :
    ChangesOnly s (s.writeI a).advance (fun p => p = .pc ∨ p = .index) :=
  ((ChangesOnly.refl s _).writeI (.inr rfl)).advance (.inl rfl)

/-- Settles O36: the state it answers is `s` with `I` written and `pc` advanced. -/
theorem loadIndexSetsI : Obligations.LoadIndexSetsI := by
  unfold Obligations.LoadIndexSetsI
  exact fun s nnn => ⟨decodeWord_encode (.ldI nnn), (s.writeI (absolute nnn)).advance, rfl, s.writeI_absolute_i_toNat nnn, rfl,
    s.writeI_advance_changesOnly _⟩

theorem indexOverflowFlag_of_gt {sum : Nat} (h : sum > 0xFFF) : indexOverflowFlag sum = 1 := by
  rw [indexOverflowFlag, decide_eq_true h, flagByte, if_pos rfl]

theorem indexOverflowFlag_of_le {sum : Nat} (h : sum ≤ 0xFFF) : indexOverflowFlag sum = 0 := by
  rw [indexOverflowFlag, decide_eq_false (Nat.not_lt.mpr h), flagByte, if_neg Bool.false_ne_true]

/-- Settles O37: the sum is of the old values, so a flag written to VF first does not reach it, even when `x` names VF (decision D3). -/
theorem addToIndexMasksAndFlagsOverflow : Obligations.AddToIndexMasksAndFlagsOverflow := by
  unfold Obligations.AddToIndexMasksAndFlagsOverflow
  intro s x
  have hflag := s.writeFlag_readV_VF (indexOverflowFlag (s.i.toNat + (s.readV x).toNat))
  refine ⟨decodeWord_encode (.addI x), _, rfl, ?sum,
    fun hover => hflag.trans (indexOverflowFlag_of_gt hover), fun hfits => hflag.trans (indexOverflowFlag_of_le hfits), rfl,
    (((ChangesOnly.refl s _).writeV (.inr (.inr rfl))).writeI (.inr (.inl rfl))).advance (.inl rfl)⟩
  case sum => rw [State.advance_i, State.writeI_ofNat_i_toNat]

/-- Settles O38: five times a whole byte is below 0x1000, so the mask of `I` leaves it as it is. -/
theorem glyphAddressIsFiveTimesVx : Obligations.GlyphAddressIsFiveTimesVx := by
  unfold Obligations.GlyphAddressIsFiveTimesVx
  refine fun s x => ⟨(s.writeI (BitVec.ofNat 16 ((s.readV x).toNat * 5))).advance, rfl, ?address, rfl,
    s.writeI_advance_changesOnly _⟩
  case address =>
    have hbyte := (s.readV x).isLt
    rw [State.advance_i, State.writeI_ofNat_i_toNat]
    omega

/-! ## The three decimal digits (R133) -/

theorem bcdDigit_toNat (b : Byte) (divisor : Nat) : (bcdDigit b divisor).toNat = b.toNat / divisor % 10 := by
  rw [bcdDigit, BitVec.toNat_ofNat]
  omega

theorem bcdDigit_toNat_lt (b : Byte) (divisor : Nat) : (bcdDigit b divisor).toNat < 10 := by
  rw [bcdDigit_toNat]
  exact Nat.mod_lt _ (by decide)

/-- The three digits are those of the byte: it is below 1000. -/
theorem toNat_eq_bcdDigits (b : Byte) :
    b.toNat = (bcdDigit b 100).toNat * 100 + (bcdDigit b 10).toNat * 10 + (bcdDigit b 1).toNat := by
  simp only [bcdDigit_toNat]
  omega

/-- Different offsets from `I` are different addresses (R136). -/
theorem State.dataAddr_ne (s : State) {j k : Nat} (h : j ≠ k) : s.dataAddr j ≠ s.dataAddr k := mt Nat.add_left_cancel h

theorem State.writeByte_readByte_same (s : State) {a : Nat} {b : Byte} (h : s.MemCanonical) : (s.writeByte a b).readByte a = b :=
  Memory.read_write_same h

/-- Three bytes written at `I`, `I + 1`, `I + 2` are read back there. -/
theorem State.writeThreeBytes_readByte (s : State) (b₀ b₁ b₂ : Byte) (hmem : s.MemCanonical) (htop : s.i.toNat + 2 ≤ 0xFFF) :
    let t := ((s.writeByte (s.dataAddr 0) b₀).writeByte (s.dataAddr 1) b₁).writeByte (s.dataAddr 2) b₂
    t.readByte (s.dataAddr 0) = b₀ ∧ t.readByte (s.dataAddr 1) = b₁ ∧ t.readByte (s.dataAddr 2) = b₂ := by
  have haddr : ∀ k, k ≤ 2 → s.dataAddr k ≤ 0xFFF := fun k hk => Nat.le_trans (Nat.add_le_add_left hk _) htop
  have hmem₁ : (s.writeByte (s.dataAddr 0) b₀).MemCanonical := s.writeByte_wf hmem (haddr 0 (by decide))
  have hmem₂ := State.writeByte_wf (b := b₁) _ hmem₁ (haddr 1 (by decide))
  refine ⟨?_, ?_, State.writeByte_readByte_same _ hmem₂⟩
  · rw [State.writeByte_readByte_of_ne _ (s.dataAddr_ne (by decide)), State.writeByte_readByte_of_ne _ (s.dataAddr_ne (by decide)),
      s.writeByte_readByte_same hmem]
  · rw [State.writeByte_readByte_of_ne _ (s.dataAddr_ne (by decide)), State.writeByte_readByte_same _ hmem₁]

/-- Settles O39: in range the three digits are written, and read back where they were written. -/
theorem bcdStoresThreeDigits : Obligations.BcdStoresThreeDigits := by
  unfold Obligations.BcdStoresThreeDigits
  intro s x hmem htop
  obtain ⟨hhundreds, htens, hones⟩ := s.writeThreeBytes_readByte (bcdDigit (s.readV x) 100) (bcdDigit (s.readV x) 10)
    (bcdDigit (s.readV x) 1) hmem htop
  exact ⟨_, _, _, _, State.ifInRange_of_true (State.dataInRange_succ.mpr htop), hhundreds, htens, hones,
    toNat_eq_bcdDigits _, bcdDigit_toNat_lt _ _, bcdDigit_toNat_lt _ _, rfl, ldB_changesOnly x _ _ _⟩

/-! ## The block transfers (R134, R135) -/

theorem blockReg_of_toNat (r : Reg) : blockReg r.toNat = r := BitVec.eq_of_toNat_eq (blockReg_toNat r.isLt)

/-- Settles O40: in range the block is stored, and `V[r]` is the register stored at `I + r`. -/
theorem storeRegistersCopiesV0ToVx : Obligations.StoreRegistersCopiesV0ToVx := by
  unfold Obligations.StoreRegistersCopiesV0ToVx
  intro s x hmem htop
  refine ⟨_, exec_storeRegs_of_inRange htop, fun r hr => ?stored, ?next, storeRegs_changesOnly x⟩
  case stored =>
    rw [State.advance_readByte, State.storeBlock_readByte (n := x.toNat + 1) hmem (.inr htop) (Nat.lt_succ_of_le hr),
      blockReg_of_toNat]
  case next => rw [State.advance_pc, State.storeBlock_pc]

/-- Settles O41: in range the block is loaded, at most all 16 registers. -/
theorem loadRegistersCopiesMemory : Obligations.LoadRegistersCopiesMemory := by
  unfold Obligations.LoadRegistersCopiesMemory
  intro s x htop
  refine ⟨_, State.ifInRange_of_true (State.dataInRange_succ.mpr htop), fun r hr => ?loaded, ?next, loadRegs_changesOnly x⟩
  case loaded => rw [State.advance_readV, State.loadBlock_readV r x.isLt, if_pos (Nat.lt_succ_of_le hr)]
  case next => rw [State.advance_pc, State.loadBlock_pc]

end Sys2Proof.Machine
end

section
/-! PROOFS. Clearing and drawing: what the pixels and VF hold after, and that a second draw undoes the first (45_display.md R141 to
R143). -/

namespace Sys2Proof.Machine

variable {s t : State} {x y : Reg} {n : BitVec 4}

/-! ## Clearing (R141) -/

/-- Settles O44: the state it answers is `s` with the blank framebuffer and `pc` advanced. -/
theorem clearScreenZeroesEveryPixel : Obligations.ClearScreenZeroesEveryPixel := by
  unfold Obligations.ClearScreenZeroesEveryPixel
  intro s
  have hfb := (ChangesOnly.refl s (fun p => p = .pc ∨ ∃ X Y, p = .pixel X Y)).writeFb (fb := fbBlank) fun X Y hXY =>
    absurd (.inr ⟨X, Y, rfl⟩) hXY
  exact ⟨decodeWord_encode .cls, s.fbClear.advance, rfl, fbGet_blank, rfl, hfb.advance (.inl rfl)⟩

/-! ## One draw (R142) -/

/-- The range check of a draw: an empty sprite is always in range. -/
theorem State.dataInRange_of_sprite (h : n = 0 ∨ s.i.toNat + n.toNat - 1 ≤ 0xFFF) : s.dataInRange n.toNat = true := by
  rw [State.dataInRange_iff]
  bv_omega

/-- Settles O45: in range, the state it answers is `s` with the rows drawn, which invert the sprite, and the flag of whether they hit
a set pixel. -/
theorem drawInvertsTheSpriteAndReportsCollision : Obligations.DrawInvertsTheSpriteAndReportsCollision := by
  unfold Obligations.DrawInvertsTheSpriteAndReportsCollision
  intro s x y n hrange
  obtain ⟨hinverted, -, hhit⟩ := s.drawRows_spec x y n
  refine ⟨_, State.ifInRange_of_true (State.dataInRange_of_sprite hrange), hinverted, fun hset => ?collision,
    fun hclear => ?noCollision, rfl, drw_changesOnly x y n _⟩
  case collision => rw [State.advance_readV, State.writeFlag_readV_VF, hhit.mpr hset, flagByte, if_pos rfl]
  case noCollision =>
    have hmissed := mt hhit.mp fun ⟨X, Y, hS, hset⟩ => Bool.false_ne_true ((hclear X Y hS).symm.trans hset)
    rw [State.advance_readV, State.writeFlag_readV_VF, flagByte, if_neg hmissed]

/-! ## The same draw again (R143) -/

/-- The pixels of a sprite are given by `V[x]`, `V[y]`, `I` and the bytes of memory. -/
theorem spriteSet_congr (hx : t.readV x = s.readV x) (hy : t.readV y = s.readV y) (hi : t.i = s.i)
    (hmem : ∀ a, t.readByte a = s.readByte a) (X : Fin 64) (Y : Fin 32) : SpriteSet t x y n X Y ↔ SpriteSet s x y n X Y := by
  simp only [SpriteSet, hx, hy, hi, hmem]

/-- A draw whose coordinates do not stand in VF leaves the sprite where it is. -/
theorem spriteSet_of_drw_changesOnly (h : ChangesOnly s t (MayWrite s (.drw x y n))) (hx : x ≠ VF) (hy : y ≠ VF)
    (X : Fin 64) (Y : Fin 32) : SpriteSet t x y n X Y ↔ SpriteSet s x y n X Y :=
  spriteSet_congr (h (.reg x) (by simp [MayWrite, hx])) (h (.reg y) (by simp [MayWrite, hy])) (h .index (by simp [MayWrite]))
    (fun a => h (.byteAt a) (by simp [MayWrite])) X Y

/-- A pixel outside the sprite is kept by a draw. -/
theorem fbGet_of_drw_changesOnly {X : Fin 64} {Y : Fin 32} (h : ChangesOnly s t (MayWrite s (.drw x y n)))
    (hS : ¬ SpriteSet s x y n X Y) : fbGet t.fb X Y = fbGet s.fb X Y :=
  h (.pixel X Y) fun hw => by
    simp only [MayWrite, reduceCtorEq, false_or, Part.pixel.injEq] at hw
    obtain ⟨_, _, hS', rfl, rfl⟩ := hw
    exact hS hS'

/-- Settles O46: by O45 each draw inverts its sprite and its frame keeps the rest, and the second sprite is the first. -/
theorem drawingTwiceRestoresTheScreen : Obligations.DrawingTwiceRestoresTheScreen := by
  unfold Obligations.DrawingTwiceRestoresTheScreen
  intro s t x y n hx hy hrange hdraw
  obtain ⟨t', hdraw', hinverted, -, -, -, hframe⟩ := drawInvertsTheSpriteAndReportsCollision s x y n hrange
  obtain rfl : t' = t := Host.Outcome.next.inj (hdraw'.symm.trans hdraw)
  have hsame := spriteSet_of_drw_changesOnly hframe hx hy
  have hi : t'.i = s.i := hframe .index (by simp)
  obtain ⟨u, hagain, hinvertedAgain, hcollision, -, -, hframeAgain⟩ :=
    drawInvertsTheSpriteAndReportsCollision t' x y n (hi ▸ hrange)
  refine ⟨u, hagain, fb_ext _ _ fun X Y => ?restored, fun hclear ⟨X, Y, hS⟩ => hcollision ⟨X, Y, (hsame X Y).mpr hS, ?set⟩⟩
  case restored =>
    by_cases hS : SpriteSet s x y n X Y
    · rw [hinvertedAgain X Y ((hsame X Y).mpr hS), hinverted X Y hS, Bool.not_not]
    · rw [fbGet_of_drw_changesOnly hframeAgain (mt (hsame X Y).mp hS), fbGet_of_drw_changesOnly hframe hS]
  case set => rw [hinverted X Y hS, hclear X Y hS, Bool.not_false]

end Sys2Proof.Machine
end

section
/-! PROOFS. The keypad, timer and random instructions: which way a key test skips, what `Fx0A` reports, the moves between a register
and a timer, the byte drawn (46_input_timers_random.md R150 to R156). -/

namespace Sys2Proof.Machine

variable {s : State}

/-! ## The skips on a key (R150, R151) -/

/-- The key a byte names is the one whose number is its low 4 bits (decision D12). -/
theorem keyNumber_eq_of_val {b : Byte} {k : Fin 16} (h : k.val = b.toNat % 16) : keyNumber b = k := Fin.ext h.symm

theorem exec_skp_of_key {x : Reg} {k : Fin 16} (h : k.val = (s.readV x).toNat % 16) :
    exec (.skp x) s = .next (s.skipIf (s.keyPressed k)) := by
  rw [← keyNumber_eq_of_val h]; rfl

theorem exec_sknp_of_key {x : Reg} {k : Fin 16} (h : k.val = (s.readV x).toNat % 16) :
    exec (.sknp x) s = .next (s.skipIf (!s.keyPressed k)) := by
  rw [← keyNumber_eq_of_val h]; rfl

/-- Settles O27: each is the skip on the state of key `k`, `SKNP` on its negation. -/
theorem skipsOnAKey : Obligations.SkipsOnAKey := by
  unfold Obligations.SkipsOnAKey
  refine fun s x k hk => ⟨⟨_, exec_skp_of_key hk, s.skipIf_changesOnly _, State.skipIf_pc_of_taken, fun hup => ?skpFalls⟩,
    ⟨_, exec_sknp_of_key hk, s.skipIf_changesOnly _, fun hup => ?sknpSkips, fun hdown => ?sknpFalls⟩⟩
  case skpFalls => exact State.skipIf_pc_of_not_taken (Bool.eq_false_iff.mp hup)
  case sknpSkips => exact State.skipIf_pc_of_taken (by rw [hup, Bool.not_false])
  case sknpFalls => exact State.skipIf_pc_of_not_taken (by simp [hdown])

/-! ## The wait for a key (R152) -/

theorem State.keySelect_pressedKeys_eq_none_iff : keySelect s.pressedKeys = none ↔ ∀ k, s.keyPressed k = false := by
  simp only [keySelect_none, List.eq_nil_iff_forall_not_mem, State.mem_pressedKeys, Bool.not_eq_true]

/-- A key selected among the pressed keys is a pressed key, whichever the free choice takes (decision D11, log 6). -/
theorem State.keyPressed_of_keySelect {k : Fin 16} (h : keySelect s.pressedKeys = some k) : s.keyPressed k = true :=
  (s.mem_pressedKeys k).mp (keySelect_mem h)

/-- The number of a key fits in a byte. -/
theorem key_toNat_ofNat (k : Fin 16) : (BitVec.ofNat 8 k.val).toNat = k.val :=
  Nat.mod_eq_of_lt (by omega)

/-- Settles O47: along the key selected; none is selected exactly when none is pressed. -/
theorem waitForKeyReportsAPressedKey : Obligations.WaitForKeyReportsAPressedKey := by
  unfold Obligations.WaitForKeyReportsAPressedKey
  refine fun s x => ⟨fun hnone => exec_ldVxK_of_none x (State.keySelect_pressedKeys_eq_none_iff.mpr hnone), ?reports⟩
  case reports =>
    rintro ⟨j, hj⟩
    cases hk : keySelect s.pressedKeys with
    | none => exact absurd hj (Bool.eq_false_iff.mp (State.keySelect_pressedKeys_eq_none_iff.mp hk j))
    | some k =>
      refine ⟨_, k, exec_ldVxK_of_some x hk, State.keyPressed_of_keySelect hk, ?_, rfl, s.writeV_advance_changesOnly x _⟩
      rw [s.writeV_advance_readV_same, key_toNat_ofNat]

/-! ## The timers (R153 to R155) -/

/-- Settles O48: each state answered is `s` with `V[x]` or a timer written and `pc` advanced. -/
theorem timerMoves : Obligations.TimerMoves := by
  unfold Obligations.TimerMoves
  exact fun s x =>
    ⟨⟨(s.writeV x s.dt).advance, rfl, s.writeV_advance_readV_same x _, rfl, s.writeV_advance_changesOnly x _⟩,
      ⟨(s.writeDT (s.readV x)).advance, rfl, rfl, rfl, ((ChangesOnly.refl s _).writeDT (.inr rfl)).advance (.inl rfl)⟩,
      ⟨(s.writeST (s.readV x)).advance, rfl, rfl, rfl, ((ChangesOnly.refl s _).writeST (.inr rfl)).advance (.inl rfl)⟩⟩

/-! ## The random byte (R156) -/

/-- The byte drawn and the queue left, when the host has supplied bytes: the oldest, and the rest (log 5). -/
theorem State.nextRandom_and_consumeRandom_of_cons {b : Byte} {rest : List Byte} (h : s.rand = b :: rest) :
    s.nextRandom = b ∧ s.consumeRandom.rand = rest := by
  simp [State.nextRandom, h]

/-- Settles O49: the state it answers is `s` with a byte drawn, that byte under the mask in `V[x]`, and `pc` advanced. -/
theorem randomByteIsDrawnUnderTheMask : Obligations.RandomByteIsDrawnUnderTheMask := by
  unfold Obligations.RandomByteIsDrawnUnderTheMask
  intro s x kk
  have hdrawn := s.consumeRandom.writeV_advance_readV_same x (s.nextRandom &&& kk)
  have hdraw := (ChangesOnly.refl s (fun p => p = .pc ∨ p = .reg x ∨ p = .randomInput ∨ p = .draws)).consumeRandom
    (.inr (.inr (.inl rfl))) (.inr (.inr (.inr rfl)))
  refine ⟨_, s.nextRandom, rfl, hdrawn, fun b rest => State.nextRandom_and_consumeRandom_of_cons, fun hempty => ?staysEmpty,
    fun k hk => ?masked, rfl, rfl, (hdraw.writeV (.inr (.inl rfl))).advance (.inl rfl)⟩
  case staysEmpty => simp [hempty]
  case masked => rw [hdrawn, BitVec.getLsbD_and, hk, Bool.and_false]

end Sys2Proof.Machine
end

section
/-! PROOFS. `HALT`: what raises it and with what record, that nothing but STATUS changes then, and that a `Load` alone leaves it
(60_exceptions.md R160 to R171). -/

namespace Sys2Proof.Machine

variable {s t u : State} {r : Raised}

/-- An answer that has the STATUS of the state before. -/
theorem status_kept_of_next (h : (.next u : Out) = .next t) (hu : u.status = s.status) : t.status = s.status :=
  Host.Outcome.next.inj h ▸ hu

/-! ## A halted core (R169, R171) -/

theorem cpuTick_of_halted (h : s.Halted) : cpuTick s = .next s := by
  obtain ⟨e, info, hs⟩ := h
  simp only [cpuTick, hs]

theorem State.Halted.takeEvent (h : s.Halted) : s.takeEvent.Halted := by
  simpa only [State.Halted, State.takeEvent_status] using h

/-- Settles O11: the step is the tick on the state without the event, and there the core is still halted. -/
theorem haltedCoreIgnoresCpuTicks : Obligations.HaltedCoreIgnoresCpuTicks := by
  unfold Obligations.HaltedCoreIgnoresCpuTicks
  intro s hs hnext
  rw [step_cpu hnext, cpuTick_of_halted hs.takeEvent]

/-- Of the agents' actions on a halted core a `Load` alone changes STATUS. -/
theorem act_status_of_halted {e : Event} (hs : s.Halted) (h : act e s = .next t) :
    t.status = s.status ∨ ∃ image, e = .load image := by
  cases e with
  | load image => exact .inr ⟨image, rfl⟩
  | cpuTick => exact .inl (status_kept_of_next ((cpuTick_of_halted hs).symm.trans h) rfl)
  | timerTick | setKey | supplyByte => exact .inl (status_kept_of_next h rfl)

/-- Settles O12: with no event STATUS is kept, and with one by what its agent does on the halted core. -/
theorem onlyALoadLeavesTheHaltedState : Obligations.OnlyALoadLeavesTheHaltedState := by
  unfold Obligations.OnlyALoadLeavesTheHaltedState
  intro s t hs h hne
  cases he : s.nextEvent with
  | none =>
    rw [step_no_event he] at h
    obtain rfl := Host.Outcome.next.inj h
    exact absurd s.takeEvent_status hne
  | some e =>
    rw [step_event he] at h
    rcases act_status_of_halted hs.takeEvent h with hkept | ⟨image, rfl⟩
    · exact absurd (hkept.trans s.takeEvent_status) hne
    · exact ⟨image, rfl⟩

/-- Settles O13: no agent's action ends in a fault or a refusal. -/
theorem everyStepAnswersANextState : Obligations.EveryStepAnswersANextState := by
  unfold Obligations.EveryStepAnswersANextState
  exact step_answers

/-- Settles O23: each is the answer of its instruction where the stack check fails. -/
theorem stackErrorsHalt : Obligations.StackErrorsHalt := by
  unfold Obligations.StackErrorsHalt
  exact fun _ nnn => ⟨exec_call_of_full nnn, exec_ret_of_empty⟩

/-! ## The record of an error, per error (R162 to R166) -/

/-- The state with STATUS set to the error raised, and nothing else changed (R161). -/
def State.haltedWith (s : State) (r : Raised) : State := { s with status := .halt r.error r.info }

theorem State.eq_haltedWith_of_raise (h : s.raise r = .next t) : t = s.haltedWith r := State.raise_next h

/-- The record is true of a state that runs: there is none. -/
theorem State.haltRecordTrue_of_run (h : s.status = .run) : s.HaltRecordTrue := by simp only [State.HaltRecordTrue, h]

/-- The record speaks of STATUS, `pc` and `SP` alone. -/
theorem State.HaltRecordTrue.of_kept (hs : s.HaltRecordTrue) (hstatus : t.status = s.status) (hpc : t.pc = s.pc)
    (hsp : t.sp = s.sp) : t.HaltRecordTrue := by
  simpa only [State.HaltRecordTrue, hstatus, hpc, hsp] using hs

theorem State.haltedWith_stackOverflow_true (h : s.sp.val = 16) : (s.haltedWith ⟨.stackOverflow, s.pc⟩).HaltRecordTrue :=
  And.intro rfl h

theorem State.haltedWith_stackUnderflow_true (h : s.sp.val = 0) : (s.haltedWith ⟨.stackUnderflow, s.pc⟩).HaltRecordTrue :=
  And.intro rfl h

/-- Data out of range records 0x1000, the lowest address above memory (R163 (c) to (e)). -/
theorem State.haltedWith_dataOutOfRange_true (s : State) : (s.haltedWith ⟨.addressOutOfRange, 0x1000⟩).HaltRecordTrue := by
  simp only [State.HaltRecordTrue, State.haltedWith]
  decide

/-- A fetch that raises records an address from 0x1000 up to the bound of `pc` (R163 (a), (b)). -/
theorem State.haltedWith_fetch_error_true (hpc : s.PcBounded) (h : s.fetch = .error r) : (s.haltedWith r).HaltRecordTrue := by
  have hbound : s.pc.toNat ≤ 0x10FE := hpc
  have houtside : 0xFFE < s.pc.toNat := Nat.lt_of_not_le fun hin => nomatch h.symm.trans (State.fetch_ok hin)
  obtain ⟨info, hf, hinfo⟩ := State.fetch_error_of_outside houtside
  obtain rfl : r = ⟨.addressOutOfRange, info⟩ := Except.error.inj (h.symm.trans hf)
  simp only [State.HaltRecordTrue, State.haltedWith]
  omega

/-- A word that does not decode matches no row of the table (R65, R166). -/
theorem wordWellFormed_of_decodeWord_error {op : Word} {e : DecodeError} (h : decodeWord op = .error e) :
    wordWellFormed op = false := by
  refine Bool.eq_false_iff.mpr fun hwf => ?_
  obtain ⟨i, hi⟩ := (decoderAcceptsExactlyTheTableWords op).1 hwf
  exact nomatch h.symm.trans hi

theorem State.haltedWith_unknownOpcode_true (s : State) {op : Word} {e : DecodeError} (h : decodeWord op = .error e) :
    (s.haltedWith ⟨.unknownOpcode, op⟩).HaltRecordTrue :=
  wordWellFormed_of_decodeWord_error h

/-! ## An instruction keeps STATUS, or changes it alone and records the truth (R161, R168) -/

/-- STATUS is kept, or nothing else is and its record is true. -/
def KeepsStatusOrHalts (s t : State) : Prop :=
  t.status = s.status ∨ ∃ r, t = s.haltedWith r ∧ (s.haltedWith r).HaltRecordTrue

theorem KeepsStatusOrHalts.of_next (h : (.next u : Out) = .next t) (hu : u.status = s.status) : KeepsStatusOrHalts s t :=
  .inl (status_kept_of_next h hu)

theorem KeepsStatusOrHalts.of_raise (h : s.raise r = .next t) (hr : (s.haltedWith r).HaltRecordTrue) :
    KeepsStatusOrHalts s t :=
  .inr ⟨r, State.eq_haltedWith_of_raise h, hr⟩

theorem KeepsStatusOrHalts.of_ifInRange {n : Nat} (h : s.ifInRange n u = .next t) (hu : u.status = s.status) :
    KeepsStatusOrHalts s t := by
  rcases State.ifInRange_next h with ⟨-, rfl⟩ | ⟨-, rfl⟩
  · exact .inl hu
  · exact .inr ⟨_, rfl, s.haltedWith_dataOutOfRange_true⟩

theorem State.storeBlock_status (s : State) (n : Nat) : (s.storeBlock n).status = s.status := by rw [State.storeBlock_eq]

theorem State.loadBlock_status (s : State) (n : Nat) : (s.loadBlock n).status = s.status := by rw [State.loadBlock_eq]

theorem exec_keepsStatusOrHalts {i : Instr} (h : exec i s = .next t) : KeepsStatusOrHalts s t := by
  cases i with
  | ret =>
    rcases Nat.eq_zero_or_pos s.sp.val with hsp | hsp
    · rw [exec_ret_of_empty hsp] at h
      exact .of_raise h (State.haltedWith_stackUnderflow_true hsp)
    · rw [exec_ret_of_pos hsp] at h
      exact .of_next h rfl
  | call nnn =>
    rcases s.sp_lt_or_full with hsp | hsp
    · rw [exec_call_of_lt nnn hsp] at h
      exact .of_next h rfl
    · rw [exec_call_of_full nnn hsp] at h
      exact .of_raise h (State.haltedWith_stackOverflow_true hsp)
  | ldVxK x =>
    cases hk : keySelect s.pressedKeys with
    | some k =>
      rw [exec_ldVxK_of_some x hk] at h
      exact .of_next h rfl
    | none =>
      rw [exec_ldVxK_of_none x hk] at h
      exact .of_next h rfl
  | drw | ldB => exact .of_ifInRange h rfl
  | storeRegs x => exact .of_ifInRange h (s.storeBlock_status _)
  | loadRegs x => exact .of_ifInRange h (s.loadBlock_status _)
  | _ => exact .of_next h rfl

/-- Settles O14: an instruction that does not keep STATUS leaves the state before it, halted. -/
theorem anInstructionThatHaltsChangesStatusAlone : Obligations.AnInstructionThatHaltsChangesStatusAlone := by
  unfold Obligations.AnInstructionThatHaltsChangesStatusAlone
  intro i s t h hne
  obtain ⟨r, rfl, -⟩ := (exec_keepsStatusOrHalts h).resolve_left hne
  exact ⟨r.error, r.info, rfl⟩

/-! ## Every agent keeps the record true -/

theorem KeepsStatusOrHalts.haltRecordTrue_of_run (h : KeepsStatusOrHalts s t) (hrun : s.status = .run) :
    t.HaltRecordTrue := by
  rcases h with hkept | ⟨r, rfl, hr⟩
  · exact State.haltRecordTrue_of_run (hkept.trans hrun)
  · exact hr

theorem cpuTick_haltRecordTrue (hpc : s.PcBounded) (hs : s.HaltRecordTrue) (h : cpuTick s = .next t) : t.HaltRecordTrue := by
  rcases cpuTick_cases s with ⟨-, heq⟩ | ⟨-, r, hfetch, heq⟩ | ⟨-, op, e, -, hdecode, heq⟩ | ⟨hrun, _, i, -, -, heq⟩
  · exact Host.Outcome.next.inj (heq.symm.trans h) ▸ hs
  · rw [State.eq_haltedWith_of_raise (heq.symm.trans h)]
    exact State.haltedWith_fetch_error_true hpc hfetch
  · rw [State.eq_haltedWith_of_raise (heq.symm.trans h)]
    exact s.haltedWith_unknownOpcode_true hdecode
  · exact (exec_keepsStatusOrHalts (heq.symm.trans h)).haltRecordTrue_of_run hrun

/-- The length a refused image records saturates: it fits in the word (R162, decision D8). -/
theorem recordedLength_toNat (n : Nat) : (BitVec.ofNat 16 (min n 0xFFFF)).toNat = min n 0xFFFF := by
  rw [BitVec.toNat_ofNat]
  omega

/-- A load leaves a core that runs, or one halted with the length refused. -/
theorem load_haltRecordTrue (image : List Byte) (s : State) : (load image s).HaltRecordTrue := by
  rcases Nat.lt_or_ge 3584 image.length with h | h
  · rw [load_of_refused s h]
    refine And.intro ?_ rfl
    rw [recordedLength_toNat]
    omega
  · rw [load_of_accepted s h]
    exact State.haltRecordTrue_of_run rfl

theorem act_haltRecordTrue {e : Event} (hpc : s.PcBounded) (hs : s.HaltRecordTrue) (h : act e s = .next t) :
    t.HaltRecordTrue := by
  cases e with
  | cpuTick => exact cpuTick_haltRecordTrue hpc hs h
  | load image => exact Host.Outcome.next.inj h ▸ load_haltRecordTrue image s
  | timerTick | setKey | supplyByte => exact Host.Outcome.next.inj h ▸ hs.of_kept rfl rfl rfl

/-- Settles O18: taking the event keeps the record and the bound of `pc`, and then whichever agent moves keeps the record. -/
theorem everyStepKeepsTheHaltRecordTrue : Obligations.EveryStepKeepsTheHaltRecordTrue := by
  unfold Obligations.EveryStepKeepsTheHaltRecordTrue
  intro s t hinv hs h
  have hs' : s.takeEvent.HaltRecordTrue := hs.of_kept s.takeEvent_status s.takeEvent_pc s.takeEvent_sp
  cases he : s.nextEvent with
  | none =>
    rw [step_no_event he] at h
    exact Host.Outcome.next.inj h ▸ hs'
  | some e =>
    rw [step_event he] at h
    exact act_haltRecordTrue hinv.takeEvent.pcBounded hs' h

end Sys2Proof.Machine
end

section
/-! PROOFS. Timer ticks, one and several: the timers count down to 0, and the sound timer expires once (60_exceptions.md R174, R175). -/

namespace Sys2Proof.Machine

variable {s t u : State} {w : Part → Prop} {k : Nat}

theorem ChangesOnly.trans (hst : ChangesOnly s t w) (htu : ChangesOnly t u w) : ChangesOnly s u w := fun p hp => by
  have hst := hst p hp
  have htu := htu p hp
  cases p with
  | schedule => exact ⟨htu.1.trans hst.1, htu.2.trans hst.2⟩
  | _ => exact Eq.trans htu hst

theorem ChangesOnly.timerTick (h : ChangesOnly s t w) (hd : w .delay) (hs : w .sound) (he : w .soundExpired) :
    ChangesOnly s (timerTick t) w := fun p hp => by
  cases p with
  | delay => exact absurd hd hp
  | sound => exact absurd hs hp
  | soundExpired => exact absurd he hp
  | _ => exact h _ hp

/-- What timer ticks may write: the timers, the count of events, and of the schedule the ticks taken off it. -/
def TimerParts (p : Part) : Prop := p = .delay ∨ p = .sound ∨ p = .soundExpired ∨ p = .schedule

/-- `t` is `s` after `k` timer ticks (R174, R175). -/
structure CountedDown (k : Nat) (s t : State) : Prop where
  delay : t.dt.toNat = s.dt.toNat - k
  sound : t.st.toNat = s.st.toNat - k
  expired : 1 ≤ s.st.toNat ∧ s.st.toNat ≤ k → t.soundExpired = s.soundExpired + 1
  notExpired : s.st.toNat = 0 ∨ k < s.st.toNat → t.soundExpired = s.soundExpired
  frame : ChangesOnly s t TimerParts

theorem CountedDown.refl (s : State) : CountedDown 0 s s where
  delay := rfl
  sound := rfl
  expired := fun h => by omega
  notExpired := fun _ => rfl
  frame := .refl s _

/-- The step of a timer tick. -/
theorem CountedDown.one (s : State) : CountedDown 1 s (timerTick s.takeEvent) where
  delay := by rw [timerTick_dt, State.takeEvent_dt, countDown_toNat]
  sound := by rw [timerTick_st, State.takeEvent_st, countDown_toNat]
  expired := fun h => by
    have hone : s.st = 1 := BitVec.eq_of_toNat_eq (Nat.le_antisymm h.2 h.1)
    rw [timerTick_soundExpired, State.takeEvent_st, if_pos hone, State.takeEvent_soundExpired]
  notExpired := fun h => by
    have hne : s.st ≠ 1 := fun hone => by simp [hone] at h
    rw [timerTick_soundExpired, State.takeEvent_st, if_neg hne, State.takeEvent_soundExpired]
  frame := ((ChangesOnly.refl s _).takeEvent (.inr (.inr (.inr rfl)))).timerTick (.inl rfl) (.inr (.inl rfl))
    (.inr (.inr (.inl rfl)))

/-- A tick and then `k` more are `k + 1`: the sound timer expires in the first, or in the others, or in neither. -/
theorem CountedDown.one_add (hst : CountedDown 1 s t) (htu : CountedDown k t u) : CountedDown (k + 1) s u where
  delay := by rw [htu.delay, hst.delay, Nat.sub_sub, Nat.add_comm]
  sound := by rw [htu.sound, hst.sound, Nat.sub_sub, Nat.add_comm]
  expired := fun h => by
    have hsound := hst.sound
    rcases Nat.eq_or_lt_of_le h.1 with hone | hmore
    · rw [htu.notExpired (by omega), hst.expired (by omega)]
    · rw [htu.expired (by omega), hst.notExpired (by omega)]
  notExpired := fun h => by
    have hsound := hst.sound
    rw [htu.notExpired (by omega), hst.notExpired (by omega)]
  frame := hst.frame.trans htu.frame

theorem step_timerTick (h : s.eventAt 0 = some .timerTick) : step s = .next (timerTick s.takeEvent) :=
  step_event (s.nextEvent_eq.trans h)

theorem runSteps_timerTicks (s : State) (h : ∀ j, j < k → s.eventAt j = some .timerTick) :
    ∃ t, runSteps k s = .next t ∧ CountedDown k s t := by
  induction k generalizing s with
  | zero => exact ⟨s, runSteps_zero s, .refl s⟩
  | succ k ih =>
    have hstep := step_timerTick (h 0 (Nat.succ_pos k))
    obtain ⟨t, ht, hcount⟩ := ih _ fun j hj => (step_eventAt hstep j).trans (h (j + 1) (Nat.succ_lt_succ hj))
    exact ⟨t, (runSteps_of_next k hstep).trans ht, (CountedDown.one s).one_add hcount⟩

/-- Settles O50: by induction on the ticks. -/
theorem timersCountDownToZeroAndExpireOnce : Obligations.TimersCountDownToZeroAndExpireOnce := by
  unfold Obligations.TimersCountDownToZeroAndExpireOnce
  intro k s h
  obtain ⟨t, ht, hcount⟩ := runSteps_timerTicks s h
  exact ⟨t, ht, hcount.delay, hcount.sound, hcount.expired, hcount.notExpired, hcount.frame⟩

end Sys2Proof.Machine
end

section
/-! PROOFS. A refused `Load`, what a `Load` does not depend on, and the states in which the program has come to rest
(60_exceptions.md R162; 70_reset_and_hazards.md R190, R194, R205). -/

namespace Sys2Proof.Machine

/-! ## Load (R190, R194) -/

/-- A rebuilt memory lists nothing. -/
theorem State.rebuild_readByte (s : State) (a : Nat) : s.rebuild.readByte a = Memory.unlisted s.font a := rfl

/-- Settles O53: the state refused is the rebuilt state with STATUS set; memory reads as it does unlisted. -/
theorem tooLongImageIsRefused : Obligations.TooLongImageIsRefused := by
  unfold Obligations.TooLongImageIsRefused
  intro s image he hlen
  have hstep : step s = .next (load image s.takeEvent) := step_event he
  rw [load_of_refused s.takeEvent hlen] at hstep
  have hfont : ∀ a : Fin 80, s.takeEvent.rebuild.readByte a.val = s.font[a.val] := fun a => by
    rw [State.rebuild_readByte, Memory.unlisted_font]
    simp only [State.takeEvent_font]
  have hzero : ∀ a, 0x050 ≤ a → a ≤ 0xFFF → s.takeEvent.rebuild.readByte a = 0 := fun a ha _ =>
    Memory.unlisted_of_ge _ ha
  exact ⟨_, _, hstep, rfl, recordedLength_toNat _, s.takeEvent.rebuild_readV, rfl, rfl, rfl, s.takeEvent.rebuild_stackEntry,
    rfl, rfl, hfont, hzero, fbGet_blank, s.takeEvent_keys, s.takeEvent_rand, s.takeEvent_draws, s.takeEvent_font,
    s.takeEvent_soundExpired, rfl, rfl⟩

/-- Settles O54: what a `Load` leaves is written out from the parts it does not touch. -/
theorem loadLeavesNoResidue : Obligations.LoadLeavesNoResidue := by
  unfold Obligations.LoadLeavesNoResidue
  intro image s s' hfont hkeys hrand hexpired hdraws hagenda hlater
  simp only [load, State.rebuild, hfont, hkeys, hrand, hexpired, hdraws, hagenda, hlater]

/-! ## Quiescent states (R205) -/

theorem State.Quiescent.timerTick {s : State} (h : s.Quiescent) : (timerTick s).Quiescent := by
  obtain ⟨hrun, hpc, nnn, hdecode, htarget⟩ := h
  exact ⟨hrun, hpc, nnn, hdecode, htarget⟩

/-- Settles O58: the tick executes the jump of `pc` to itself, which by O19 answers the same state. -/
theorem quiescentStatesStay : Obligations.QuiescentStatesStay := by
  unfold Obligations.QuiescentStatesStay
  refine fun s hs => ⟨?_, hs.timerTick⟩
  obtain ⟨hrun, hpc, nnn, hdecode, htarget⟩ := hs
  obtain ⟨-, t, hjump, -, -, htoItself, -⟩ := jumpSetsPc s nnn
  rw [cpuTick_run hrun hpc hdecode, hjump, htoItself htarget]

end Sys2Proof.Machine
end
